-- ==== Sys2Proof/Word.lean ====
section
/-! DEFINITION. The bit-vector types of the machine (rules R5, R7, R10). -/

namespace Sys2Proof

/-- A 16-bit word: every register, address, operand, result and instruction (rule R5). -/
abbrev Word := BitVec 16

/-- One byte of memory, the addressable unit (rule R5). -/
abbrev Byte := BitVec 8

/-- A 3-bit register field; value `i` names register `Ri`, so no field value is out of range (rule R10). -/
abbrev Reg := BitVec 3

end Sys2Proof
end

