-- ==== Sys2Proof/Config.lean ====
section
/-! DEFINITION. The implementation parameters of rule R6 that a step reads: `EA_INDIRECT`, `ORI_MODE` and
`ENC`. They are fixed for one machine; `Machine.State` carries them, so that every statement about all
states is about every setting (assumptions 1 and 5). `MEM_INIT`, the fourth parameter, is the argument of
`Machine.State.powerOn`. The spec's defaults stand in `Sys2Proof/Decode.lean`. -/

namespace Sys2Proof.Config

/-- `EA_INDIRECT` (rules R6, R119): how LoadIndirect and StoreIndirect form their address. -/
inductive EaIndirect where
  /-- The address is the 3-bit number in the rs field. -/
  | regnum
  /-- The address is the contents of the register that rs names. -/
  | contents
  deriving DecidableEq, Repr

/-- `ORI_MODE` (rules R6, R134): what OrImmediate computes. -/
inductive OriMode where
  /-- The bitwise OR that the name states. -/
  | or
  /-- The bitwise AND that the reference implementation was observed to compute. -/
  | andCompat
  deriving DecidableEq, Repr

/-- Opcode and funct of each R-type instruction (rule R58). -/
structure REnc where
  add : BitVec 4 × BitVec 3
  sub : BitVec 4 × BitVec 3
  and : BitVec 4 × BitVec 3
  or : BitVec 4 × BitVec 3
  xor : BitVec 4 × BitVec 3
  not : BitVec 4 × BitVec 3
  shl : BitVec 4 × BitVec 3
  shr : BitVec 4 × BitVec 3
  ldr : BitVec 4 × BitVec 3
  str : BitVec 4 × BitVec 3
  cmp : BitVec 4 × BitVec 3
  ret : BitVec 4 × BitVec 3
  push : BitVec 4 × BitVec 3
  pop : BitVec 4 × BitVec 3
  deriving DecidableEq, Repr

/-- Opcode of each I-type instruction (rule R59). -/
structure IEnc where
  ld : BitVec 4
  st : BitVec 4
  addi : BitVec 4
  andi : BitVec 4
  ori : BitVec 4
  lui : BitVec 4
  cmpi : BitVec 4
  deriving DecidableEq, Repr

/-- Opcode of each jump kind (rule R60). -/
structure JEnc where
  call : BitVec 4
  jmp : BitVec 4
  jz : BitVec 4
  jnz : BitVec 4
  jgt : BitVec 4
  deriving DecidableEq, Repr

/-- Subcode of each of the two special-register moves (rule R61). The subcodes of Nop, Sysall and Halt are
fixed by the source and no part of the parameter. -/
structure EEnc where
  mfs : BitVec 4
  mts : BitVec 4
  deriving DecidableEq, Repr

/-- Selector of each special register (rules R19, R62). -/
structure SelEnc where
  pc : BitVec 3
  sp : BitVec 3
  flags : BitVec 3
  deriving DecidableEq, Repr

/-- `ENC` (rule R6): the numeric opcode, funct, subcode and selector assignment, in one table. -/
structure Enc where
  r : REnc
  i : IEnc
  j : JEnc
  e : EEnc
  sel : SelEnc
  deriving DecidableEq, Repr

/-- The parameters of one machine that its step reads (rule R6). -/
structure Params where
  eaIndirect : EaIndirect
  oriMode : OriMode
  enc : Enc
  deriving DecidableEq, Repr

end Sys2Proof.Config
end

