-- ==== Sys2Proof/Syntax.lean ====
section
/-! DEFINITION. The closed instruction set (rule R57), the four word layouts (rules R52 to R55) and the
decode errors (rule R161). -/

namespace Sys2Proof

/-- The special registers that a selector names (rule R19). -/
inductive Special where
  | pc
  | sp
  | flags
  deriving DecidableEq, Repr

/-- The 31 instructions (rule R57), one constructor per row of `spec/opcode_table.json`, with the
operands that decode gives them (rule R68). Register fields and immediates are the raw fields; a jump
carries its sign-extended delta. -/
inductive Instr where
  /-- Add: rd <- rs + rt (rule R100). -/
  | add (rd rs rt : Reg)
  /-- Sub: rd <- rs - rt (rule R101). -/
  | sub (rd rs rt : Reg)
  /-- And (rule R102). -/
  | and (rd rs rt : Reg)
  /-- Or (rule R103). -/
  | or (rd rs rt : Reg)
  /-- Xor (rule R104). -/
  | xor (rd rs rt : Reg)
  /-- Not: rd <- complement of rs (rule R105). -/
  | not (rd rs : Reg)
  /-- ShiftLeft: rd <- rs shifted by the low four bits of rt (rule R106). -/
  | shl (rd rs rt : Reg)
  /-- ShiftRight, logical (rule R107). -/
  | shr (rd rs rt : Reg)
  /-- LoadIndirect (rule R120). -/
  | ldr (rd rs : Reg)
  /-- StoreIndirect: rd is the data register (rule R121). -/
  | str (rd rs : Reg)
  /-- Compare (rule R108). -/
  | cmp (rs rt : Reg)
  /-- Return (rule R124). -/
  | ret
  /-- Push (rule R122). -/
  | push (rs : Reg)
  /-- Pop (rule R123). -/
  | pop (rd : Reg)
  /-- Load from a literal address (rule R130). -/
  | ld (rt : Reg) (imm8 : Byte)
  /-- Store to a literal address (rule R131). -/
  | st (rt : Reg) (imm8 : Byte)
  /-- AddImmediate, immediate signed (rule R132). -/
  | addi (rt : Reg) (imm8 : Byte)
  /-- AndImmediate, immediate unsigned (rule R133). -/
  | andi (rt : Reg) (imm8 : Byte)
  /-- OrImmediate, immediate unsigned (rule R134). -/
  | ori (rt : Reg) (imm8 : Byte)
  /-- LoadUpperImmediate (rule R135). -/
  | lui (rt : Reg) (imm8 : Byte)
  /-- CompareImmediate, immediate signed (rule R136). -/
  | cmpi (rt : Reg) (imm8 : Byte)
  /-- Jump(Call) (rule R141). -/
  | call (delta : Word)
  /-- Jump(Unconditional) (rule R142). -/
  | jmp (delta : Word)
  /-- Jump(Zero) (rule R143). -/
  | jz (delta : Word)
  /-- Jump(NotZero) (rule R144). -/
  | jnz (delta : Word)
  /-- Jump(GreaterThan) (rule R145). -/
  | jgt (delta : Word)
  /-- Nop (rule R150). -/
  | nop
  /-- MoveFromSpecial: rt <- special register (rule R151). -/
  | mfs (rt : Reg) (sel : Special)
  /-- MoveToSpecial: special register <- rt (rule R152). -/
  | mts (sel : Special) (rt : Reg)
  /-- Sysall, the reserved instruction (rule R153). -/
  | sysall
  /-- Halt (rule R154). -/
  | halt
  deriving DecidableEq, Repr

/-- The decode errors (rule R161), each with its payload. `invalidIType`, `invalidJType` and
`invalidRegister` are kept so that the type matches the source; no word raises them. -/
inductive DecodeError where
  /-- An R-type word whose (opcode, funct) is in no row. -/
  | invalidRType (opcode : BitVec 4) (funct : BitVec 3)
  /-- An I-type word with an unrecognised opcode: unreachable. -/
  | invalidIType (opcode : BitVec 4)
  /-- A J-type word with an unrecognised opcode: unreachable. -/
  | invalidJType (opcode : BitVec 4)
  /-- An E-type word with subcode 0x3 to 0xD. -/
  | invalidEType (subcode : BitVec 4)
  /-- A special-register move whose selector field is 3 to 7. -/
  | invalidSpecialRegister (raw : BitVec 3)
  /-- A general-register field outside its domain: unreachable. -/
  | invalidRegister (raw : BitVec 3)
  /-- A word with opcode nibble 0xE. -/
  | unassignedOpcode (opcode : BitVec 4)
  deriving DecidableEq, Repr

/-- The four layouts of a word (rule R50). -/
inductive Layout where
  | rType
  | iType
  | jType
  | eType
  deriving DecidableEq, Repr

/-- The field tuple of a word in its layout (rules R52 to R55). It keeps every bit, the ignored ones
too, so that splitting a word and joining it again loses nothing (rule R69). -/
inductive Fields where
  | rType (opcode : BitVec 4) (rd rs rt : Reg) (funct : BitVec 3)
  | iType (opcode : BitVec 4) (rt : Reg) (imm : BitVec 9)
  | jType (opcode : BitVec 4) (offset : BitVec 12)
  | eType (subcode : BitVec 4) (rs rt : Reg) (unused : BitVec 2)
  deriving DecidableEq, Repr

/-- The R-type instructions, as the decoder's (opcode, funct) dispatch names them (rule R58). -/
inductive ROp where
  | add | sub | and | or | xor | not | shl | shr | ldr | str | cmp | ret | push | pop
  deriving DecidableEq, Repr

/-- The I-type instructions (rule R59). -/
inductive IOp where
  | ld | st | addi | andi | ori | lui | cmpi
  deriving DecidableEq, Repr

/-- The J-type instructions, the five jump kinds (rule R60). -/
inductive JOp where
  | call | jmp | jz | jnz | jgt
  deriving DecidableEq, Repr

/-- The E-type instructions (rule R61). -/
inductive EOp where
  | nop | mfs | mts | sysall | halt
  deriving DecidableEq, Repr

/-- Every R-type instruction, in the order of rule R58. -/
def ROp.all : List ROp :=
  [.add, .sub, .and, .or, .xor, .not, .shl, .shr, .ldr, .str, .cmp, .ret, .push, .pop]

/-- Every I-type instruction, in the order of rule R59. -/
def IOp.all : List IOp := [.ld, .st, .addi, .andi, .ori, .lui, .cmpi]

/-- Every jump kind, in the order of rule R60. -/
def JOp.all : List JOp := [.call, .jmp, .jz, .jnz, .jgt]

/-- Every E-type instruction, in the order of rule R61. -/
def EOp.all : List EOp := [.nop, .mfs, .mts, .sysall, .halt]

/-- Every special register, in the order of rule R19. -/
def Special.all : List Special := [.pc, .sp, .flags]

end Sys2Proof
end

