-- ==== Sys2Proof/Decode.lean ====
section
/-! DEFINITION. The byte order (rule R37), the encoding numbers `ENC` (rules R6, R56, R58 to R62), the
word codec (rules R52 to R55, R69), the decoder (rule R68) and the encoder (rule R72), all for any `ENC`. -/

namespace Sys2Proof

/-! ## Byte order -/

/-- The byte of a word that stands at the lower address (rule R37). -/
def lowByte (w : Word) : Byte := w.extractLsb' 0 8

/-- The byte of a word that stands at the higher address (rule R37). -/
def highByte (w : Word) : Byte := w.extractLsb' 8 8

/-- The word whose low byte is `lo` and whose high byte is `hi`: `lo | (hi << 8)` (rules R35, R37). -/
def wordOfBytes (lo hi : Byte) : Word := lo.setWidth 16 ||| (hi.setWidth 16 <<< 8)

/-! ## `ENC`: the one table of numbers (rule R6) -/

/-- The spec's assignment, the default of `ENC` (rules R58 to R62). -/
def Config.Enc.spec : Config.Enc :=
  { r :=
      { add := (0x0, 0)
        sub := (0x0, 1)
        and := (0x0, 2)
        or := (0x0, 3)
        xor := (0x0, 4)
        not := (0x0, 5)
        shl := (0x0, 6)
        shr := (0x0, 7)
        ldr := (0x1, 0)
        str := (0x1, 1)
        cmp := (0x1, 2)
        ret := (0x1, 3)
        push := (0x1, 4)
        pop := (0x1, 5) }
    i := { ld := 0x2, st := 0x3, addi := 0x4, andi := 0x5, ori := 0x6, lui := 0x7, cmpi := 0x8 }
    j := { call := 0x9, jmp := 0xA, jz := 0xB, jnz := 0xC, jgt := 0xD }
    e := { mfs := 0x1, mts := 0x2 }
    sel := { pc := 0, sp := 1, flags := 2 } }

/-- The spec's defaults (rule R6): `EA_INDIRECT = regnum`, `ORI_MODE = or`, `ENC` the tables of rules R58
to R62. -/
def Config.Params.default : Config.Params := { eaIndirect := .regnum, oriMode := .or, enc := .spec }

/-- Opcode and funct of each R-type instruction (rule R58). -/
def ROp.code (enc : Config.Enc) : ROp → BitVec 4 × BitVec 3
  | .add => enc.r.add
  | .sub => enc.r.sub
  | .and => enc.r.and
  | .or => enc.r.or
  | .xor => enc.r.xor
  | .not => enc.r.not
  | .shl => enc.r.shl
  | .shr => enc.r.shr
  | .ldr => enc.r.ldr
  | .str => enc.r.str
  | .cmp => enc.r.cmp
  | .ret => enc.r.ret
  | .push => enc.r.push
  | .pop => enc.r.pop

/-- Opcode of each I-type instruction (rule R59). -/
def IOp.code (enc : Config.Enc) : IOp → BitVec 4
  | .ld => enc.i.ld
  | .st => enc.i.st
  | .addi => enc.i.addi
  | .andi => enc.i.andi
  | .ori => enc.i.ori
  | .lui => enc.i.lui
  | .cmpi => enc.i.cmpi

/-- Opcode of each jump kind (rule R60). -/
def JOp.code (enc : Config.Enc) : JOp → BitVec 4
  | .call => enc.j.call
  | .jmp => enc.j.jmp
  | .jz => enc.j.jz
  | .jnz => enc.j.jnz
  | .jgt => enc.j.jgt

/-- Subcode of each E-type instruction; the source fixes those of Nop, Sysall and Halt (rule R61). -/
def EOp.code (enc : Config.Enc) : EOp → BitVec 4
  | .nop => 0x0
  | .mfs => enc.e.mfs
  | .mts => enc.e.mts
  | .sysall => 0xE
  | .halt => 0xF

/-- Selector of each special register (rules R19, R62). -/
def Special.code (enc : Config.Enc) : Special → BitVec 3
  | .pc => enc.sel.pc
  | .sp => enc.sel.sp
  | .flags => enc.sel.flags

/-- Whether some R-type instruction has the opcode (rules R56, R58). -/
def isROpcode (enc : Config.Enc) (opcode : BitVec 4) : Bool :=
  ROp.all.any (fun o => (o.code enc).1 == opcode)

/-- The layout that an opcode nibble selects (rule R56). The source fixes the I-type, J-type and E-type
opcodes; of the other three, R-type are those that `ENC` gives to an R-type instruction, under the spec's
assignment 0x0 and 0x1, and the rest select none (assumption 5). -/
def layoutOf (enc : Config.Enc) (opcode : BitVec 4) : Option Layout :=
  if 0x2 ≤ opcode.toNat ∧ opcode.toNat ≤ 0x8 then some .iType
  else if 0x9 ≤ opcode.toNat ∧ opcode.toNat ≤ 0xD then some .jType
  else if opcode.toNat = 0xF then some .eType
  else if isROpcode enc opcode then some .rType
  else none

/-- The R-type instruction of an (opcode, funct) pair (rule R58). -/
def findROp (enc : Config.Enc) (opcode : BitVec 4) (funct : BitVec 3) : Option ROp :=
  ROp.all.find? (fun o => o.code enc == (opcode, funct))

/-- The I-type instruction of an opcode (rule R59). -/
def findIOp (enc : Config.Enc) (opcode : BitVec 4) : Option IOp :=
  IOp.all.find? (fun o => o.code enc == opcode)

/-- The jump kind of an opcode (rule R60). -/
def findJOp (enc : Config.Enc) (opcode : BitVec 4) : Option JOp :=
  JOp.all.find? (fun o => o.code enc == opcode)

/-- The E-type instruction of a subcode (rule R61). -/
def findEOp (enc : Config.Enc) (subcode : BitVec 4) : Option EOp :=
  EOp.all.find? (fun o => o.code enc == subcode)

/-- The special register of a selector field (rules R19, R62). -/
def findSpecial (enc : Config.Enc) (sel : BitVec 3) : Option Special :=
  Special.all.find? (fun r => r.code enc == sel)

/-! ## The word codec -/

/-- The field tuple of a word (rules R52 to R55), or `UnassignedOpcode` where the opcode has no layout, as
0xE under the spec's assignment (rule R56). -/
def splitWord (enc : Config.Enc) (w : Word) : Except DecodeError Fields :=
  let opcode := w.extractLsb' 12 4
  match layoutOf enc opcode with
  | some .rType =>
    .ok (.rType opcode (w.extractLsb' 9 3) (w.extractLsb' 6 3) (w.extractLsb' 3 3) (w.extractLsb' 0 3))
  | some .iType => .ok (.iType opcode (w.extractLsb' 9 3) (w.extractLsb' 0 9))
  | some .jType => .ok (.jType opcode (w.extractLsb' 0 12))
  | some .eType =>
    .ok (.eType (w.extractLsb' 8 4) (w.extractLsb' 5 3) (w.extractLsb' 2 3) (w.extractLsb' 0 2))
  | none => .error (.unassignedOpcode opcode)

/-! The accessors of a field tuple: each gives its field in the layouts that have it (rule R69). -/

/-- The opcode nibble; every E-type word has 0xF (rule R55). -/
def Fields.opcode : Fields → BitVec 4
  | .rType opcode _ _ _ _ => opcode
  | .iType opcode _ _ => opcode
  | .jType opcode _ => opcode
  | .eType _ _ _ _ => 0xF

/-- The rd field, of R-type words. -/
def Fields.rd : Fields → Option Reg
  | .rType _ rd _ _ _ => some rd
  | .iType _ _ _ => none
  | .jType _ _ => none
  | .eType _ _ _ _ => none

/-- The rs field, of R-type and E-type words. -/
def Fields.rs : Fields → Option Reg
  | .rType _ _ rs _ _ => some rs
  | .iType _ _ _ => none
  | .jType _ _ => none
  | .eType _ rs _ _ => some rs

/-- The rt field, of R-type, I-type and E-type words. -/
def Fields.rt : Fields → Option Reg
  | .rType _ _ _ rt _ => some rt
  | .iType _ rt _ => some rt
  | .jType _ _ => none
  | .eType _ _ rt _ => some rt

/-- The funct field, of R-type words. -/
def Fields.funct : Fields → Option (BitVec 3)
  | .rType _ _ _ _ funct => some funct
  | .iType _ _ _ => none
  | .jType _ _ => none
  | .eType _ _ _ _ => none

/-- The 9-bit immediate field, of I-type words. -/
def Fields.immediate : Fields → Option (BitVec 9)
  | .rType _ _ _ _ _ => none
  | .iType _ _ imm => some imm
  | .jType _ _ => none
  | .eType _ _ _ _ => none

/-- The offset field, of J-type words. -/
def Fields.offset : Fields → Option (BitVec 12)
  | .rType _ _ _ _ _ => none
  | .iType _ _ _ => none
  | .jType _ offset => some offset
  | .eType _ _ _ _ => none

/-- The subcode field, of E-type words. -/
def Fields.subcode : Fields → Option (BitVec 4)
  | .rType _ _ _ _ _ => none
  | .iType _ _ _ => none
  | .jType _ _ => none
  | .eType subcode _ _ _ => some subcode

/-- The word of a field tuple, by the formulas of rules R52 to R55. -/
def joinFields : Fields → Word
  | .rType opcode rd rs rt funct =>
    (opcode.setWidth 16 <<< 12) ||| (rd.setWidth 16 <<< 9) ||| (rs.setWidth 16 <<< 6) |||
      (rt.setWidth 16 <<< 3) ||| funct.setWidth 16
  | .iType opcode rt imm => (opcode.setWidth 16 <<< 12) ||| (rt.setWidth 16 <<< 9) ||| imm.setWidth 16
  | .jType opcode offset => (opcode.setWidth 16 <<< 12) ||| offset.setWidth 16
  | .eType subcode rs rt unused =>
    0xF000#16 ||| (subcode.setWidth 16 <<< 8) ||| (rs.setWidth 16 <<< 5) ||| (rt.setWidth 16 <<< 2) |||
      unused.setWidth 16

/-! ## The decoder -/

/-- `imm8 = imm[7:0]`; bit 8 of the field is ignored (rule R63). -/
def imm8Of (imm : BitVec 9) : Byte := imm.extractLsb' 0 8

/-- `sext_12` of a jump's offset field: the signed byte delta as a 16-bit pattern (rules R7, R63). -/
def sext12 (offset : BitVec 12) : Word := offset.signExtend 16

/-- The offset field of a delta: its low 12 bits (rules R54, R70). -/
def offsetOf (delta : Word) : BitVec 12 := delta.extractLsb' 0 12

/-- The instruction of a field tuple, or the decode error (rule R68). -/
def decodeFields (enc : Config.Enc) : Fields → Except DecodeError Instr
  | .rType opcode rd rs rt funct =>
    match findROp enc opcode funct with
    | some .add => .ok (.add rd rs rt)
    | some .sub => .ok (.sub rd rs rt)
    | some .and => .ok (.and rd rs rt)
    | some .or => .ok (.or rd rs rt)
    | some .xor => .ok (.xor rd rs rt)
    | some .not => .ok (.not rd rs)
    | some .shl => .ok (.shl rd rs rt)
    | some .shr => .ok (.shr rd rs rt)
    | some .ldr => .ok (.ldr rd rs)
    | some .str => .ok (.str rd rs)
    | some .cmp => .ok (.cmp rs rt)
    | some .ret => .ok .ret
    | some .push => .ok (.push rs)
    | some .pop => .ok (.pop rd)
    | none => .error (.invalidRType opcode funct)
  | .iType opcode rt imm =>
    match findIOp enc opcode with
    | some .ld => .ok (.ld rt (imm8Of imm))
    | some .st => .ok (.st rt (imm8Of imm))
    | some .addi => .ok (.addi rt (imm8Of imm))
    | some .andi => .ok (.andi rt (imm8Of imm))
    | some .ori => .ok (.ori rt (imm8Of imm))
    | some .lui => .ok (.lui rt (imm8Of imm))
    | some .cmpi => .ok (.cmpi rt (imm8Of imm))
    | none => .error (.invalidIType opcode)
  | .jType opcode offset =>
    match findJOp enc opcode with
    | some .call => .ok (.call (sext12 offset))
    | some .jmp => .ok (.jmp (sext12 offset))
    | some .jz => .ok (.jz (sext12 offset))
    | some .jnz => .ok (.jnz (sext12 offset))
    | some .jgt => .ok (.jgt (sext12 offset))
    | none => .error (.invalidJType opcode)
  | .eType subcode rs rt _ =>
    match findEOp enc subcode with
    | some .nop => .ok .nop
    | some .mfs =>
      match findSpecial enc rs with
      | some sel => .ok (.mfs rt sel)
      | none => .error (.invalidSpecialRegister rs)
    | some .mts =>
      match findSpecial enc rs with
      | some sel => .ok (.mts sel rt)
      | none => .error (.invalidSpecialRegister rs)
    | some .sysall => .ok .sysall
    | some .halt => .ok .halt
    | none => .error (.invalidEType subcode)

/-- `Decode(w)` (rule R68): the word codec, then the instruction decoder. Total on every word. -/
def decode (enc : Config.Enc) (w : Word) : Except DecodeError Instr :=
  match splitWord enc w with
  | .ok f => decodeFields enc f
  | .error e => .error e

/-- The decoder on the two bytes of an instruction as memory holds them (rules R37, R195). -/
def decodeBytes (enc : Config.Enc) (lo hi : Byte) : Except DecodeError Instr :=
  decode enc (wordOfBytes lo hi)

/-! ## The encoder -/

/-- The R-type field tuple of an instruction, its numbers taken from `ENC`. -/
def rFields (enc : Config.Enc) (o : ROp) (rd rs rt : Reg) : Fields :=
  .rType (o.code enc).1 rd rs rt (o.code enc).2

/-- The I-type field tuple of an instruction; bit 8 of the immediate field is 0 (rule R72). -/
def iFields (enc : Config.Enc) (o : IOp) (rt : Reg) (imm8 : Byte) : Fields :=
  .iType (o.code enc) rt (imm8.setWidth 9)

/-- The J-type field tuple of a jump. -/
def jFields (enc : Config.Enc) (o : JOp) (delta : Word) : Fields :=
  .jType (o.code enc) (offsetOf delta)

/-- The E-type field tuple of an instruction; the two unused bits are 0 (rule R72). -/
def eFields (enc : Config.Enc) (o : EOp) (rs rt : Reg) : Fields :=
  .eType (o.code enc) rs rt 0

/-- The field tuple of an instruction, with 0 in every ignored field (rules R64, R70, R72). -/
def fieldsOf (enc : Config.Enc) : Instr → Fields
  | .add rd rs rt => rFields enc .add rd rs rt
  | .sub rd rs rt => rFields enc .sub rd rs rt
  | .and rd rs rt => rFields enc .and rd rs rt
  | .or rd rs rt => rFields enc .or rd rs rt
  | .xor rd rs rt => rFields enc .xor rd rs rt
  | .not rd rs => rFields enc .not rd rs 0
  | .shl rd rs rt => rFields enc .shl rd rs rt
  | .shr rd rs rt => rFields enc .shr rd rs rt
  | .ldr rd rs => rFields enc .ldr rd rs 0
  | .str rd rs => rFields enc .str rd rs 0
  | .cmp rs rt => rFields enc .cmp 0 rs rt
  | .ret => rFields enc .ret 0 0 0
  | .push rs => rFields enc .push 0 rs 0
  | .pop rd => rFields enc .pop rd 0 0
  | .ld rt imm8 => iFields enc .ld rt imm8
  | .st rt imm8 => iFields enc .st rt imm8
  | .addi rt imm8 => iFields enc .addi rt imm8
  | .andi rt imm8 => iFields enc .andi rt imm8
  | .ori rt imm8 => iFields enc .ori rt imm8
  | .lui rt imm8 => iFields enc .lui rt imm8
  | .cmpi rt imm8 => iFields enc .cmpi rt imm8
  | .call delta => jFields enc .call delta
  | .jmp delta => jFields enc .jmp delta
  | .jz delta => jFields enc .jz delta
  | .jnz delta => jFields enc .jnz delta
  | .jgt delta => jFields enc .jgt delta
  | .nop => eFields enc .nop 0 0
  | .mfs rt sel => eFields enc .mfs (sel.code enc) rt
  | .mts sel rt => eFields enc .mts (sel.code enc) rt
  | .sysall => eFields enc .sysall 0 0
  | .halt => eFields enc .halt 0 0

/-- The canonical word of an instruction (rule R72). -/
def encode (enc : Config.Enc) (i : Instr) : Word := joinFields (fieldsOf enc i)

/-- The bytes of one word as a program image holds them, low byte first (rules R37, R195). -/
def wordBytes (w : Word) : List Byte := [lowByte w, highByte w]

/-- A program image: the words one after the other, each low byte first, no header (rule R195). -/
def programBytes (words : List Word) : List Byte := words.flatMap wordBytes

/-! ## The host's entry -/

/-- The word whose low `nbits` bits are those of `w` and whose other bits are 0. -/
def tableWord (nbits w : Nat) : Word := BitVec.ofNat 16 (w % 2 ^ nbits)

/-- The instruction that the decoder reads from the bytes of a row's word, laid out as memory holds
them; none where it rejects them. The rows are those of the spec's assignment. -/
def decodeTableWord (nbits w : Nat) : Option Instr :=
  match decodeBytes .spec (lowByte (tableWord nbits w)) (highByte (tableWord nbits w)) with
  | .ok i => some i
  | .error _ => none

end Sys2Proof
end

