-- ==== Sys2Proof/Machine/State.lean ====
section
/-! DEFINITION. The state of the core as plain data (rules R10 to R26), the faults (rule R160), the
host's refusals, and the state at power-on (rules R25, R191). -/

namespace Sys2Proof.Machine

/-- The four condition flags, independent booleans (rule R16). -/
structure Flags where
  /-- Zero. -/
  z : Bool
  /-- Negative. -/
  n : Bool
  /-- Carry, or borrow after a subtraction. -/
  c : Bool
  /-- Overflow (signed). -/
  v : Bool
  deriving DecidableEq, Repr

/-- The five fault kinds of a step with their payloads (rule R160). A fault is taken as rule R170
describes it: the step that raises one answers a next state in which it is latched in `State.fault`; every
step from that state on stops and answers it as the host's outcome `fault` (rules R81, R169, R171).
Both are the spec's own effect, so no constructor is a difference from the hardware: safe. -/
inductive Fault where
  /-- Raised by the decode stage of `step` for a word that is no instruction (rule R84). Safe. -/
  | invalidInstruction (word : Word) (error : DecodeError)
  /-- Raised by a word access at 0xFFFF, in `fetch` or in LoadIndirect and StoreIndirect (rules R35,
  R36, R162). Safe. -/
  | memoryOutOfBounds (address : Word)
  /-- Raised by the program-boundary check of `fetch` (rule R82). Safe. -/
  | programBoundsViolation (pc instructionEnd low high : Word)
  /-- Raised by Push, Pop, Return and Call (rules R94, R95). Safe. -/
  | stackOverflow
  /-- Raised by Sysall (rule R153). Safe. -/
  | notImplemented
  deriving DecidableEq, Repr

/-- Why the model gives no meaning. No step of this model answers one. -/
inductive Refusal where
  /-- Raised by an arm of `exec` whose instruction has no meaning yet. Safe. No arm is left so. -/
  | notModelled (mnemonic : String)
  /-- Raised by `State.load` for a LOAD with `start_addr + len > 0xFFFF`, which the spec refuses and
  gives no meaning (rule R192). Safe. -/
  | loadBeyondAddressSpace
  deriving DecidableEq, Repr

/-- The 65536 bytes of memory (rule R30), as the list of the (address, byte) pairs whose byte differs
from `Memory.unlisted`, addresses strictly rising; `Memory.wf` says so. -/
abbrev Memory := List Host.Cell

/-- The whole state of the core. `params` is the model's own field: the parameters of rule R6, which no
step and no LOAD changes (assumptions 1 and 5). Every other field is one of the tuple at the head of
`spec/10_state.md`. -/
structure State where
  /-- R1 to R7, `Ri` in slot `i - 1`; R0 has no storage (rules R10 to R12). -/
  regs : Vector Word 7
  /-- Program counter, a byte address (rule R13). -/
  pc : Word
  /-- Stack pointer (rule R15). -/
  sp : Word
  /-- Z, N, C, V (rule R16). -/
  flags : Flags
  /-- Set by Halt, cleared by LOAD (rule R20). -/
  halted : Bool
  /-- First address of the program interval (rule R21). -/
  programStart : Word
  /-- The address past the program interval (rule R21). -/
  programEnd : Word
  /-- The fault latch (rule R22). -/
  fault : Option Fault
  /-- The memory (rules R30, R31). -/
  mem : Memory
  /-- The parameters `EA_INDIRECT`, `ORI_MODE` and `ENC` (rule R6). -/
  params : Config.Params
  deriving DecidableEq, Repr

/-- What `exec` and `step` answer. -/
abbrev Outcome := Host.Outcome State Fault Refusal

/-- All four flags clear. -/
def Flags.clear : Flags := { z := false, n := false, c := false, v := false }

/-- The state at power-on (rules R25, R191) of a machine whose parameters are `params` and whose memory
holds `memInit`, the parameter `MEM_INIT`. -/
def State.powerOn (params : Config.Params) (memInit : Memory) : State :=
  { regs := Vector.replicate 7 0
    pc := 0
    sp := 0
    flags := Flags.clear
    halted := false
    programStart := 0
    programEnd := 0
    fault := none
    mem := memInit
    params := params }

/-- The machine right after reset: power-on with the parameters at the spec's defaults (rule R6) and
nothing listed in memory (DESIGN CHOICE, assumption 2; rule R191 leaves `MEM_INIT` free). -/
def State.reset : State := State.powerOn Config.Params.default []

end Sys2Proof.Machine
end

