-- ==== Sys2Proof/Machine/Flags.lean ====
section
/-! DEFINITION. The flag computations (rules R17, R18, R90 to R93, R106, R107) and the conditions of the
conditional jumps (rules R143 to R145). -/

namespace Sys2Proof.Machine

/-- `SetFlagsArith(a, b, r, carry, is_sub)` (rule R90). -/
def arithFlags (a b r : Word) (carry isSub : Bool) : Flags :=
  { z := r == 0
    n := r.msb
    c := carry
    v :=
      if isSub then (!a.msb && b.msb && r.msb) || (a.msb && !b.msb && !r.msb)
      else (!a.msb && !b.msb && r.msb) || (a.msb && b.msb && !r.msb) }

/-- `AddWithFlags(a, b)`: the sum mod 2^16 and the flags, C the carry out of bit 15 (rule R91). -/
def addWithFlags (a b : Word) : Word × Flags :=
  (a + b, arithFlags a b (a + b) (decide (0xFFFF < a.toNat + b.toNat)) false)

/-- `SubWithFlags(a, b)`: the difference mod 2^16 and the flags, C the borrow (rule R92). -/
def subWithFlags (a b : Word) : Word × Flags :=
  (a - b, arithFlags a b (a - b) (decide (a.toNat < b.toNat)) true)

/-- `SetFlagsLogic(r)` (rule R93). -/
def logicFlags (r : Word) : Flags :=
  { z := r == 0, n := r.msb, c := false, v := false }

/-- The flags after a shift by 1 to 15 with result `r` and last bit shifted out `out` (rules R106, R107). -/
def shiftFlags (r : Word) (out : Bool) : Flags :=
  { z := r == 0, n := r.msb, c := out, v := false }

/-- ShiftLeft of `value` by `n`, with flags `old` before: shifting by 0 keeps the flags, else C is bit
`16 - n` of the value (rule R106). -/
def shiftLeftWithFlags (value : Word) (n : Nat) (old : Flags) : Word × Flags :=
  if n = 0 then (value, old)
  else (value <<< n, shiftFlags (value <<< n) (value.getLsbD (16 - n)))

/-- ShiftRight of `value` by `n`, logical, with flags `old` before: shifting by 0 keeps the flags, else C
is bit `n - 1` of the value (rule R107). -/
def shiftRightWithFlags (value : Word) (n : Nat) (old : Flags) : Word × Flags :=
  if n = 0 then (value, old)
  else (value >>> n, shiftFlags (value >>> n) (value.getLsbD (n - 1)))

/-- `FLAGS16`: bit 0 Zero, bit 1 Carry, bit 2 Negative, bit 3 Overflow, the others 0 (rule R17). -/
def packFlags (f : Flags) : Word :=
  (if f.z then 1#16 else 0#16) ||| (if f.c then 2#16 else 0#16) ||| (if f.n then 4#16 else 0#16) |||
    (if f.v then 8#16 else 0#16)

/-- The flags that a write of `v` to FLAGS sets; bits 15:4 are ignored (rule R18). -/
def unpackFlags (v : Word) : Flags :=
  { z := v.getLsbD 0, n := v.getLsbD 2, c := v.getLsbD 1, v := v.getLsbD 3 }

/-- The condition of Jump(GreaterThan): Z clear and N equal to V (rule R145). -/
def greaterThan (f : Flags) : Bool := !f.z && (f.n == f.v)

end Sys2Proof.Machine
end

