-- ==== Sys2Proof/Machine/Ops.lean ====
section
/-! DEFINITION. The named operations over registers, special registers, memory and the stack; taking a
fault (rule R170); and LOAD, the only way out of a fault or a halt (rules R172, R192). -/

namespace Sys2Proof.Machine

/-! ## General registers -/

/-- What register `r` holds in the array: R0 reads 0 (rules R11, R12). -/
def readRegs (regs : Vector Word 7) (r : Reg) : Word :=
  if r = 0#3 then 0#16 else regs[r.toNat - 1]'(by have := r.isLt; omega)

/-- The array after writing `v` to register `r`: a write to R0 is discarded (rules R11, R12). -/
def writeRegs (regs : Vector Word 7) (r : Reg) (v : Word) : Vector Word 7 :=
  if r = 0#3 then regs else regs.set (r.toNat - 1) v (by have := r.isLt; omega)

/-- `x[r]` (rule R7). -/
def State.reg (s : State) (r : Reg) : Word := readRegs s.regs r

/-- `x[r] <- v` (rule R7). -/
def State.setReg (s : State) (r : Reg) (v : Word) : State := { s with regs := writeRegs s.regs r v }

/-! ## Program counter, stack pointer, flags, control state -/

/-- `pc <- v`; no alignment is required (rule R14). -/
def State.setPc (s : State) (v : Word) : State := { s with pc := v }

/-- `sp <- v`; no alignment is required (rule R15). -/
def State.setSp (s : State) (v : Word) : State := { s with sp := v }

/-- All four flags written. -/
def State.setFlags (s : State) (f : Flags) : State := { s with flags := f }

/-- `halted <- true` (rules R20, R154). -/
def State.setHalted (s : State) : State := { s with halted := true }

/-- `fault <- (K, info)` (rules R22, R170). -/
def State.latch (s : State) (f : Fault) : State := { s with fault := some f }

/-! ## Special registers and the logical register path -/

/-- `SR[sel]` (rule R19). -/
def State.special (s : State) : Special → Word
  | .pc => s.pc
  | .sp => s.sp
  | .flags => packFlags s.flags

/-- `SR[sel] <- v` (rules R18, R19). -/
def State.setSpecial (s : State) (r : Special) (v : Word) : State :=
  match r with
  | .pc => s.setPc v
  | .sp => s.setSp v
  | .flags => s.setFlags (unpackFlags v)

/-- The logical register identities, "one of {R0..R7, SP, PC, FLAGS}" (rule R23). -/
inductive LReg where
  | general (r : Reg)
  | special (r : Special)
  deriving DecidableEq, Repr

/-- `get(reg)` (rule R23). -/
def State.get (s : State) : LReg → Word
  | .general r => s.reg r
  | .special r => s.special r

/-- `set(reg, value)` (rule R23). -/
def State.set (s : State) (r : LReg) (v : Word) : State :=
  match r with
  | .general q => s.setReg q v
  | .special q => s.setSpecial q v

/-! ## Memory -/

/-- What an address that the list does not hold reads as (DESIGN CHOICE, assumption 2). -/
def Memory.unlisted (_addr : Nat) : Byte := 0

/-- `mem[addr]`. -/
def Memory.read : Memory → Nat → Byte
  | [], addr => Memory.unlisted addr
  | (k, b) :: rest, addr => if k = addr then b else Memory.read rest addr

/-- The cell to list for `b` at `addr`: none where the address reads as `b` unlisted. -/
def Memory.cell (addr : Nat) (b : Byte) : Memory :=
  if b = Memory.unlisted addr then [] else [(addr, b)]

/-- The list without the entries at `addr`. -/
def Memory.erase : Memory → Nat → Memory
  | [], _ => []
  | (k, c) :: rest, addr =>
    if k = addr then Memory.erase rest addr else (k, c) :: Memory.erase rest addr

/-- The list with `cells`, entries at `addr`, put before the first higher address. -/
def Memory.insert : Memory → Nat → Memory → Memory
  | [], _, cells => cells
  | (k, c) :: rest, addr, cells =>
    if k < addr then (k, c) :: Memory.insert rest addr cells else cells ++ (k, c) :: rest

/-- `mem[addr] <- b`, keeping the canonical form: writing what the address reads as unlisted removes its
entry. -/
def Memory.write (m : Memory) (addr : Nat) (b : Byte) : Memory :=
  Memory.insert (Memory.erase m addr) addr (Memory.cell addr b)

/-- The canonical form above `low`: addresses at least `low`, strictly rising, inside the address space
(rule R30), and no byte equal to what its address reads as unlisted. -/
def Memory.wfFrom : Nat → Memory → Bool
  | _, [] => true
  | low, (k, b) :: rest =>
    decide (low ≤ k) && decide (k < 0x10000) && (b != Memory.unlisted k) && Memory.wfFrom (k + 1) rest

/-- The canonical form of a memory. -/
def Memory.wf (m : Memory) : Bool := Memory.wfFrom 0 m

/-- `MemRead(addr, 1)`: cannot fail (rule R33). -/
def State.readByte (s : State) (addr : Word) : Byte := Memory.read s.mem addr.toNat

/-- `MemWrite(addr, 1, v)`: cannot fail (rule R34). -/
def State.writeByte (s : State) (addr : Word) (v : Byte) : State :=
  { s with mem := Memory.write s.mem addr.toNat v }

/-- `MemRead(addr, 2)`: little-endian, no alignment; fails only at 0xFFFF (rules R35, R37, R38). -/
def State.readWord (s : State) (addr : Word) : Except Fault Word :=
  if 0xFFFF ≤ addr.toNat then .error (.memoryOutOfBounds addr)
  else .ok (wordOfBytes (s.readByte addr) (s.readByte (addr + 1)))

/-- `MemWrite(addr, 2, v)`: little-endian, no alignment; fails only at 0xFFFF, and then changes neither
byte (rules R36 to R38). -/
def State.writeWord (s : State) (addr v : Word) : Except Fault State :=
  if 0xFFFF ≤ addr.toNat then .error (.memoryOutOfBounds addr)
  else .ok ((s.writeByte addr (lowByte v)).writeByte (addr + 1) (highByte v))

/-! ## The stack -/

/-- `Push(v)`: the check, then `sp - 2`, then the word write (rule R94). -/
def State.pushWord (s : State) (v : Word) : Except Fault State :=
  if s.sp.toNat < 2 then .error .stackOverflow
  else (s.setSp (s.sp - 2)).writeWord (s.sp - 2) v

/-- `Pop()` into a logical register: the check, then the word read, then `sp + 2` (rule R95); the
destination is written last, as rules R123 and R124 write it (rule R23). -/
def State.popInto (s : State) (dst : LReg) : Except Fault State :=
  if 0xFFFE < s.sp.toNat then .error .stackOverflow
  else
    match s.readWord s.sp with
    | .error f => .error f
    | .ok v => .ok ((s.setSp (s.sp + 2)).set dst v)

/-! ## Taking a fault, and the way out of one -/

/-- Fault entry (rule R170): the step ends in the state reached so far, with the fault latched; nothing
else is saved and control goes nowhere. -/
def raise (f : Fault) (s : State) : Outcome := .next (s.latch f)

/-- The end of a handler that started in `s`: its result, or the fault it raises. Every handler that
can raise does so before its first write (rule R170), so the fault leaves `s` as it was. -/
def finish (s : State) : Except Fault State → Outcome
  | .ok t => .next t
  | .error f => raise f s

/-- The bytes written at consecutive addresses starting at `addr` (rule R192). -/
def State.writeBytes : State → Word → List Byte → State
  | s, _, [] => s
  | s, addr, b :: rest => (s.writeByte addr b).writeBytes (addr + 1) rest

/-- The LOAD transaction (rules R26, R192), the machine's only reset and the only way out of Halted and
Faulted (rules R172, R190). R1 to R7, the flags and the bytes outside the loaded range stay. -/
def State.load (s : State) (bytes : List Byte) (startAddr : Word) : Outcome :=
  if 0xFFFF < startAddr.toNat + bytes.length then .refused .loadBeyondAddressSpace
  else
    .next (State.writeBytes
      { s with
        programStart := startAddr
        programEnd := startAddr + BitVec.ofNat 16 bytes.length
        pc := startAddr
        sp := 0xFFFE
        halted := false
        fault := none }
      startAddr bytes)

end Sys2Proof.Machine
end

