-- ==== Sys2Proof/Machine/Operands.lean ====
section
/-! DEFINITION. The operand forms: immediates (rule R63), the effective addresses (rules R119, R130), the
shift amount (rule R106), the jump target (rule R140), and the write-back of a computed result. -/

namespace Sys2Proof.Machine

/-- `zext_8`: bits 15:8 zero (rules R7, R63). -/
def zext8 (imm8 : Byte) : Word := imm8.setWidth 16

/-- `sext_8`: bits 15:8 all equal to bit 7 (rules R7, R63). -/
def sext8 (imm8 : Byte) : Word := imm8.signExtend 16

/-- The operand of LoadUpperImmediate: `{ imm8, 0x00 }` (rules R63, R135). -/
def upper8 (imm8 : Byte) : Word := zext8 imm8 <<< 8

/-- The literal address of Load and Store, not scaled (rules R63, R130). -/
def literalAddress (imm8 : Byte) : Word := zext8 imm8

/-- The address of LoadIndirect and StoreIndirect under `EA_INDIRECT` (rule R119). -/
def indirectAddress (s : State) (rs : Reg) : Word :=
  match s.params.eaIndirect with
  | .regnum => rs.setWidth 16
  | .contents => s.reg rs

/-- The shift amount: the low four bits of the amount register (rule R106). -/
def shiftAmount (s : State) (rt : Reg) : Nat := (s.reg rt &&& 0x000F).toNat

/-- The target of a taken jump: the advanced pc plus the delta, mod 2^16 (rule R140). -/
def jumpTarget (s : State) (delta : Word) : Word := s.pc + delta

/-- A result with its flags written back: all flags, then the destination register. -/
def State.writeResult (s : State) (rd : Reg) (r : Word × Flags) : State :=
  (s.setFlags r.2).setReg rd r.1

/-- The result of a bitwise operation with its flags (rule R93). -/
def logicResult (r : Word) : Word × Flags := (r, logicFlags r)

/-- A jump that is taken when `taken` holds; one that is not taken changes nothing (rule R140). -/
def State.jumpIf (s : State) (taken : Bool) (delta : Word) : State :=
  if taken then s.setPc (jumpTarget s delta) else s

end Sys2Proof.Machine
end

