-- ==== Sys2Proof/Machine/Alu.lean ====
section
/-! DEFINITION. The register-register ALU instructions (rules R100 to R108). -/

namespace Sys2Proof.Machine

/-- Add (rule R100). -/
def execAdd (rd rs rt : Reg) (s : State) : Outcome :=
  .next (s.writeResult rd (addWithFlags (s.reg rs) (s.reg rt)))

/-- Sub (rule R101). -/
def execSub (rd rs rt : Reg) (s : State) : Outcome :=
  .next (s.writeResult rd (subWithFlags (s.reg rs) (s.reg rt)))

/-- And (rule R102). -/
def execAnd (rd rs rt : Reg) (s : State) : Outcome :=
  .next (s.writeResult rd (logicResult (s.reg rs &&& s.reg rt)))

/-- Or (rule R103). -/
def execOr (rd rs rt : Reg) (s : State) : Outcome :=
  .next (s.writeResult rd (logicResult (s.reg rs ||| s.reg rt)))

/-- Xor (rule R104). -/
def execXor (rd rs rt : Reg) (s : State) : Outcome :=
  .next (s.writeResult rd (logicResult (s.reg rs ^^^ s.reg rt)))

/-- Not: the complement of rs; the source's "left operand R0" has no effect (rule R105). -/
def execNot (rd rs : Reg) (s : State) : Outcome :=
  .next (s.writeResult rd (logicResult (~~~ s.reg rs)))

/-- ShiftLeft (rule R106). -/
def execShl (rd rs rt : Reg) (s : State) : Outcome :=
  .next (s.writeResult rd (shiftLeftWithFlags (s.reg rs) (shiftAmount s rt) s.flags))

/-- ShiftRight, logical (rule R107). -/
def execShr (rd rs rt : Reg) (s : State) : Outcome :=
  .next (s.writeResult rd (shiftRightWithFlags (s.reg rs) (shiftAmount s rt) s.flags))

/-- Compare: the flags of the subtraction, no register written (rule R108). -/
def execCmp (rs rt : Reg) (s : State) : Outcome :=
  .next (s.setFlags (subWithFlags (s.reg rs) (s.reg rt)).2)

end Sys2Proof.Machine
end

