-- ==== Sys2Proof/Machine/Extended.lean ====
section
/-! DEFINITION. The extended and system instructions (rules R150 to R154). -/

namespace Sys2Proof.Machine

/-- Nop: no effect beyond the fetch's advance of pc (rule R150). -/
def execNop (s : State) : Outcome := .next s

/-- MoveFromSpecial: selector PC reads the advanced pc (rule R151). -/
def execMfs (rt : Reg) (sel : Special) (s : State) : Outcome :=
  .next (s.setReg rt (s.get (.special sel)))

/-- MoveToSpecial (rule R152). -/
def execMts (sel : Special) (rt : Reg) (s : State) : Outcome :=
  .next (s.set (.special sel) (s.reg rt))

/-- Sysall: always the fault `NotImplemented` (rule R153). -/
def execSysall (s : State) : Outcome := raise .notImplemented s

/-- Halt (rule R154). -/
def execHalt (s : State) : Outcome := .next s.setHalted

end Sys2Proof.Machine
end

