-- ==== Sys2Proof/Machine/Immediate.lean ====
section
/-! DEFINITION. The immediate instructions (rules R130 to R136). -/

namespace Sys2Proof.Machine

/-- Load (rule R130). The bound of the word read is never reached, since the address is at most 0x00FF. -/
def execLd (rt : Reg) (imm8 : Byte) (s : State) : Outcome :=
  match s.readWord (literalAddress imm8) with
  | .ok v => .next (s.setReg rt v)
  | .error f => raise f s

/-- Store (rule R131). -/
def execSt (rt : Reg) (imm8 : Byte) (s : State) : Outcome :=
  finish s (s.writeWord (literalAddress imm8) (s.reg rt))

/-- AddImmediate: always an addition of the sign-extended pattern (rule R132). -/
def execAddi (rt : Reg) (imm8 : Byte) (s : State) : Outcome :=
  .next (s.writeResult rt (addWithFlags (s.reg rt) (sext8 imm8)))

/-- AndImmediate (rule R133). -/
def execAndi (rt : Reg) (imm8 : Byte) (s : State) : Outcome :=
  .next (s.writeResult rt (logicResult (s.reg rt &&& zext8 imm8)))

/-- What OrImmediate computes under `ORI_MODE` (rule R134). -/
def oriValue (mode : Config.OriMode) (a m : Word) : Word :=
  match mode with
  | .or => a ||| m
  | .andCompat => a &&& m

/-- OrImmediate (rule R134). -/
def execOri (rt : Reg) (imm8 : Byte) (s : State) : Outcome :=
  .next (s.writeResult rt (logicResult (oriValue s.params.oriMode (s.reg rt) (zext8 imm8))))

/-- LoadUpperImmediate: no flag is touched (rule R135). -/
def execLui (rt : Reg) (imm8 : Byte) (s : State) : Outcome :=
  .next (s.setReg rt (upper8 imm8))

/-- CompareImmediate: the flags of the subtraction, no register written (rule R136). -/
def execCmpi (rt : Reg) (imm8 : Byte) (s : State) : Outcome :=
  .next (s.setFlags (subWithFlags (s.reg rt) (sext8 imm8)).2)

end Sys2Proof.Machine
end

