-- ==== Sys2Proof/Machine/Jump.lean ====
section
/-! DEFINITION. The five jumps (rules R140 to R145). When a jump runs, `pc` already holds the address of
the instruction after it. -/

namespace Sys2Proof.Machine

/-- Jump(Call): push the return address, then jump (rule R141). -/
def execCall (delta : Word) (s : State) : Outcome :=
  finish s ((s.pushWord s.pc).map (fun t => t.setPc (jumpTarget t delta)))

/-- Jump(Unconditional) (rule R142). -/
def execJmp (delta : Word) (s : State) : Outcome :=
  .next (s.jumpIf true delta)

/-- Jump(Zero) (rule R143). -/
def execJz (delta : Word) (s : State) : Outcome :=
  .next (s.jumpIf s.flags.z delta)

/-- Jump(NotZero) (rule R144). -/
def execJnz (delta : Word) (s : State) : Outcome :=
  .next (s.jumpIf (!s.flags.z) delta)

/-- Jump(GreaterThan) (rule R145). -/
def execJgt (delta : Word) (s : State) : Outcome :=
  .next (s.jumpIf (greaterThan s.flags) delta)

end Sys2Proof.Machine
end

