-- ==== Sys2Proof/Machine/MemStack.lean ====
section
/-! DEFINITION. The register-addressed memory instructions and the stack instructions (rules R119 to
R124). -/

namespace Sys2Proof.Machine

/-- LoadIndirect (rule R120). -/
def execLdr (rd rs : Reg) (s : State) : Outcome :=
  match s.readWord (indirectAddress s rs) with
  | .ok v => .next (s.setReg rd v)
  | .error f => raise f s

/-- StoreIndirect: stores the register that rd names (rule R121). -/
def execStr (rd rs : Reg) (s : State) : Outcome :=
  finish s (s.writeWord (indirectAddress s rs) (s.reg rd))

/-- Push (rule R122). -/
def execPush (rs : Reg) (s : State) : Outcome :=
  finish s (s.pushWord (s.reg rs))

/-- Pop (rule R123). -/
def execPop (rd : Reg) (s : State) : Outcome :=
  finish s (s.popInto (.general rd))

/-- Return, "equivalent to Pop into PC" (rule R124). -/
def execRet (s : State) : Outcome :=
  finish s (s.popInto (.special .pc))

end Sys2Proof.Machine
end

