-- ==== Sys2Proof/Machine/Dispatch.lean ====
section
/-! DEFINITION. The dispatch of a decoded instruction to its handler (rule R85). -/

namespace Sys2Proof.Machine

def exec (i : Instr) (s : State) : Host.Outcome State Fault Refusal :=
  match i with
  -- register-register ALU
  | .add rd rs rt => Sys2Proof.Machine.execAdd rd rs rt s
  | .sub rd rs rt => Sys2Proof.Machine.execSub rd rs rt s
  | .and rd rs rt => Sys2Proof.Machine.execAnd rd rs rt s
  | .or rd rs rt => Sys2Proof.Machine.execOr rd rs rt s
  | .xor rd rs rt => Sys2Proof.Machine.execXor rd rs rt s
  | .not rd rs => Sys2Proof.Machine.execNot rd rs s
  | .shl rd rs rt => Sys2Proof.Machine.execShl rd rs rt s
  | .shr rd rs rt => Sys2Proof.Machine.execShr rd rs rt s
  -- register-addressed memory, compare, stack
  | .ldr rd rs => Sys2Proof.Machine.execLdr rd rs s
  | .str rd rs => Sys2Proof.Machine.execStr rd rs s
  | .cmp rs rt => Sys2Proof.Machine.execCmp rs rt s
  | .ret => Sys2Proof.Machine.execRet s
  | .push rs => Sys2Proof.Machine.execPush rs s
  | .pop rd => Sys2Proof.Machine.execPop rd s
  -- immediate
  | .ld rt imm8 => Sys2Proof.Machine.execLd rt imm8 s
  | .st rt imm8 => Sys2Proof.Machine.execSt rt imm8 s
  | .addi rt imm8 => Sys2Proof.Machine.execAddi rt imm8 s
  | .andi rt imm8 => Sys2Proof.Machine.execAndi rt imm8 s
  | .ori rt imm8 => Sys2Proof.Machine.execOri rt imm8 s
  | .lui rt imm8 => Sys2Proof.Machine.execLui rt imm8 s
  | .cmpi rt imm8 => Sys2Proof.Machine.execCmpi rt imm8 s
  -- jumps
  | .call delta => Sys2Proof.Machine.execCall delta s
  | .jmp delta => Sys2Proof.Machine.execJmp delta s
  | .jz delta => Sys2Proof.Machine.execJz delta s
  | .jnz delta => Sys2Proof.Machine.execJnz delta s
  | .jgt delta => Sys2Proof.Machine.execJgt delta s
  -- extended and system
  | .nop => Sys2Proof.Machine.execNop s
  | .mfs rt sel => Sys2Proof.Machine.execMfs rt sel s
  | .mts sel rt => Sys2Proof.Machine.execMts sel rt s
  | .sysall => Sys2Proof.Machine.execSysall s
  | .halt => Sys2Proof.Machine.execHalt s

end Sys2Proof.Machine
end

