-- ==== Sys2Proof/Machine/Fetch.lean ====
section
/-! DEFINITION. The program-boundary check and the fetch of an instruction (rules R82, R83). -/

namespace Sys2Proof.Machine

/-- `instruction_end = min(pc + 2, 0xFFFF)`, the saturating sum (rule R82). -/
def instructionEnd (pc : Word) : Word := BitVec.ofNat 16 (min (pc.toNat + 2) 0xFFFF)

/-- The program-boundary check: the fault it raises, if any (rule R82). -/
def boundaryFault (s : State) : Option Fault :=
  if s.pc.toNat < s.programStart.toNat ∨ s.programEnd.toNat < (instructionEnd s.pc).toNat then
    some (.programBoundsViolation s.pc (instructionEnd s.pc) s.programStart s.programEnd)
  else none

/-- The word at pc and the state with pc advanced by 2, wrapping; the read comes first, so a failing
fetch leaves pc as it was (rules R13, R82, R83). -/
def fetch (s : State) : Except Fault (Word × State) :=
  match boundaryFault s with
  | some f => .error f
  | none =>
    match s.readWord s.pc with
    | .error f => .error f
    | .ok w => .ok (w, s.setPc (s.pc + 2))

/-- Where `withFetchWord` loads the instruction: at pc, or at 0 where a word at pc is no LOAD of the
machine because it would end beyond 0xFFFF (rule R192). -/
def fetchPlace (s : State) : Word := if s.pc.toNat + 2 ≤ 0xFFFF then s.pc else 0

end Sys2Proof.Machine
end

