-- ==== Sys2Proof/Machine/Step.lean ====
section
/-! DEFINITION. One step of the core (rule R86), and the LOAD that puts one instruction before it. -/

namespace Sys2Proof.Machine

/-- The step (rules R80 to R86). Faulted: the latched fault again. Halted: nothing changes
(`NoProgress`). Else boundary check, fetch, decode, execute; a fault of any stage is taken as rule
R170 says: a next state with the fault latched and the changes made before it kept. -/
def step (s : State) : Host.Outcome State Fault Refusal :=
  match s.fault with
  | some f => .fault f
  | none =>
    if s.halted then .next s
    else
      match fetch s with
      | .error f => raise f s
      | .ok (w, t) =>
        match decode s.params.enc w with
        | .error e => raise (.invalidInstruction w e) t
        | .ok i => exec i t

/-- `s` after a LOAD (rule R192) of the two bytes of the given word at the place it fetches from, so
that the next step runs exactly that instruction (assumption 4). -/
def State.withFetchWord (s : State) (nbits w : Nat) : State :=
  match s.load (wordBytes (tableWord nbits w)) (fetchPlace s) with
  | .next t => t
  | .fault _ => s
  | .refused _ => s

end Sys2Proof.Machine
end

