-- ==== Sys2Proof/Machine/Assembly.lean ====
section
/-! DEFINITION. The assembly syntax (rule R70) as a mnemonic with its operands, in both directions. The
syntax is the spec's notation and carries no authority; how a line is spaced and how a number is spelled
are left out (assumption 7). -/

namespace Sys2Proof

/-- An operand of an assembly line (rule R70). -/
inductive AsmOperand where
  /-- `R0` to `R7`. -/
  | reg (r : Reg)
  /-- `PC`, `SP`, `FLAGS`. -/
  | special (r : Special)
  /-- An immediate, an address or a jump's distance. -/
  | num (n : Int)
  deriving DecidableEq, Repr

/-- An assembly line: the mnemonic and the operands in the order of rule R70. -/
structure AsmLine where
  mnemonic : String
  operands : List AsmOperand
  deriving DecidableEq, Repr

/-- The line that rule R70 writes for an instruction. -/
def Instr.asm : Instr → AsmLine
  | .add rd rs rt => ⟨"ADD", [.reg rd, .reg rs, .reg rt]⟩
  | .sub rd rs rt => ⟨"SUB", [.reg rd, .reg rs, .reg rt]⟩
  | .and rd rs rt => ⟨"AND", [.reg rd, .reg rs, .reg rt]⟩
  | .or rd rs rt => ⟨"OR", [.reg rd, .reg rs, .reg rt]⟩
  | .xor rd rs rt => ⟨"XOR", [.reg rd, .reg rs, .reg rt]⟩
  | .not rd rs => ⟨"NOT", [.reg rd, .reg rs]⟩
  | .shl rd rs rt => ⟨"SHL", [.reg rd, .reg rs, .reg rt]⟩
  | .shr rd rs rt => ⟨"SHR", [.reg rd, .reg rs, .reg rt]⟩
  | .ldr rd rs => ⟨"LDR", [.reg rd, .reg rs]⟩
  | .str rd rs => ⟨"STR", [.reg rd, .reg rs]⟩
  | .cmp rs rt => ⟨"CMP", [.reg rs, .reg rt]⟩
  | .ret => ⟨"RET", []⟩
  | .push rs => ⟨"PUSH", [.reg rs]⟩
  | .pop rd => ⟨"POP", [.reg rd]⟩
  | .ld rt imm8 => ⟨"LD", [.reg rt, .num imm8.toNat]⟩
  | .st rt imm8 => ⟨"ST", [.reg rt, .num imm8.toNat]⟩
  | .addi rt imm8 => ⟨"ADDI", [.reg rt, .num imm8.toInt]⟩
  | .andi rt imm8 => ⟨"ANDI", [.reg rt, .num imm8.toNat]⟩
  | .ori rt imm8 => ⟨"ORI", [.reg rt, .num imm8.toNat]⟩
  | .lui rt imm8 => ⟨"LUI", [.reg rt, .num imm8.toNat]⟩
  | .cmpi rt imm8 => ⟨"CMPI", [.reg rt, .num imm8.toInt]⟩
  | .call delta => ⟨"CALL", [.num delta.toInt]⟩
  | .jmp delta => ⟨"JMP", [.num delta.toInt]⟩
  | .jz delta => ⟨"JZ", [.num delta.toInt]⟩
  | .jnz delta => ⟨"JNZ", [.num delta.toInt]⟩
  | .jgt delta => ⟨"JGT", [.num delta.toInt]⟩
  | .nop => ⟨"NOP", []⟩
  | .mfs rt sel => ⟨"MFS", [.reg rt, .special sel]⟩
  | .mts sel rt => ⟨"MTS", [.special sel, .reg rt]⟩
  | .sysall => ⟨"SYSALL", []⟩
  | .halt => ⟨"HALT", []⟩

/-- The immediate of LD, ST, ANDI, ORI and LUI: 0 to 255. -/
def unsignedByte (n : Int) : Option Byte :=
  if 0 ≤ n ∧ n ≤ 255 then some (BitVec.ofInt 8 n) else none

/-- The immediate of ADDI and CMPI: `n mod 256` for -128 to 127. -/
def signedByte (n : Int) : Option Byte :=
  if -128 ≤ n ∧ n ≤ 127 then some (BitVec.ofInt 8 n) else none

/-- The distance of a jump: -2048 to 2047, as its sign-extended delta. -/
def jumpDelta (n : Int) : Option Word :=
  if -2048 ≤ n ∧ n ≤ 2047 then some (BitVec.ofInt 16 n) else none

/-- The instruction of an assembly line; none where rule R70 has no such line. -/
def assemble (line : AsmLine) : Option Instr :=
  match line.operands with
  | [] =>
    match line.mnemonic with
    | "RET" => some .ret
    | "NOP" => some .nop
    | "SYSALL" => some .sysall
    | "HALT" => some .halt
    | _ => none
  | [.reg a] =>
    match line.mnemonic with
    | "PUSH" => some (.push a)
    | "POP" => some (.pop a)
    | _ => none
  | [.num n] =>
    match line.mnemonic with
    | "CALL" => (jumpDelta n).map .call
    | "JMP" => (jumpDelta n).map .jmp
    | "JZ" => (jumpDelta n).map .jz
    | "JNZ" => (jumpDelta n).map .jnz
    | "JGT" => (jumpDelta n).map .jgt
    | _ => none
  | [.reg a, .reg b] =>
    match line.mnemonic with
    | "NOT" => some (.not a b)
    | "LDR" => some (.ldr a b)
    | "STR" => some (.str a b)
    | "CMP" => some (.cmp a b)
    | _ => none
  | [.reg a, .num n] =>
    match line.mnemonic with
    | "LD" => (unsignedByte n).map (.ld a)
    | "ST" => (unsignedByte n).map (.st a)
    | "ADDI" => (signedByte n).map (.addi a)
    | "ANDI" => (unsignedByte n).map (.andi a)
    | "ORI" => (unsignedByte n).map (.ori a)
    | "LUI" => (unsignedByte n).map (.lui a)
    | "CMPI" => (signedByte n).map (.cmpi a)
    | _ => none
  | [.reg a, .special r] => if line.mnemonic = "MFS" then some (.mfs a r) else none
  | [.special r, .reg a] => if line.mnemonic = "MTS" then some (.mts r a) else none
  | [.reg a, .reg b, .reg c] =>
    match line.mnemonic with
    | "ADD" => some (.add a b c)
    | "SUB" => some (.sub a b c)
    | "AND" => some (.and a b c)
    | "OR" => some (.or a b c)
    | "XOR" => some (.xor a b c)
    | "SHL" => some (.shl a b c)
    | "SHR" => some (.shr a b c)
    | _ => none
  | _ => none

end Sys2Proof
end

