-- ==== Sys2Proof/Machine/Transactions.lean ====
section
/-! DEFINITION. What the outside can do to the core (rule R180) beside LOAD (`State.load`): STEP with the
outcome it reports, RUN, and the read-only observation surface; and the numeric codes of the faults
(rules R160, R161). -/

namespace Sys2Proof.Machine

/-- The three outcomes that STEP reports (rule R80). -/
inductive StepOutcome where
  | progress
  | noProgress
  | fault (f : Fault)
  deriving DecidableEq, Repr

/-- The STEP transaction (rules R80, R86): what it reports and the state it leaves. `none` would be an
instruction with no meaning, of which there is none. -/
def stepTransaction (s : State) : Option (StepOutcome × State) :=
  match step s with
  | .fault f => some (.fault f, s)
  | .refused _ => none
  | .next t =>
    if s.halted then some (.noProgress, t)
    else
      match t.fault with
      | some f => some (.fault f, t)
      | none => some (.progress, t)

/-- The RUN transaction, bounded by a number of STEPs: STEP repeated until it reports no progress or a
fault (rule R87); `none` where it has not ended by then. -/
def runTransaction : Nat → State → Option (StepOutcome × State)
  | 0, _ => none
  | k + 1, s =>
    match stepTransaction s with
    | none => none
    | some (.progress, t) => runTransaction k t
    | some (.noProgress, t) => some (.noProgress, t)
    | some (.fault f, t) => some (.fault f, t)

/-- `get_range(start, length)`: empty if `start + length > 0x10000`, never partial (rule R179). -/
def State.getRange (s : State) (start length : Nat) : List Byte :=
  if 0x10000 < start + length then []
  else (List.range length).map (fun k => Memory.read s.mem (start + k))

/-- What the observation surface shows beside a memory range (rules R179, R180). -/
structure Observation where
  /-- R0 to R7. -/
  registers : List Word
  pc : Word
  sp : Word
  /-- `FLAGS16` (rule R17). -/
  flags16 : Word
  halted : Bool
  fault : Option Fault
  deriving DecidableEq, Repr

/-- Reading the observation surface (rule R179). -/
def State.observe (s : State) : Observation :=
  { registers := (List.range 8).map (fun k => s.reg (BitVec.ofNat 3 k))
    pc := s.pc
    sp := s.sp
    flags16 := packFlags s.flags
    halted := s.halted
    fault := s.fault }

/-- The numeric code of a fault kind (rule R160). -/
def faultCode : Fault → Nat
  | .invalidInstruction _ _ => 1
  | .memoryOutOfBounds _ => 2
  | .programBoundsViolation _ _ _ _ => 3
  | .stackOverflow => 4
  | .notImplemented => 5

/-- The numeric sub-code of a decode error (rule R161). -/
def decodeErrorCode : DecodeError → Nat
  | .invalidRType _ _ => 1
  | .invalidIType _ => 2
  | .invalidJType _ => 3
  | .invalidEType _ => 4
  | .invalidSpecialRegister _ => 5
  | .invalidRegister _ => 6
  | .unassignedOpcode _ => 7

end Sys2Proof.Machine
end

