-- ==== Sys2Proof/WellFormed.lean ====
section
/-! DEFINITION. What an instruction, a field tuple and an `ENC` must satisfy. Register fields, immediates
and selectors fit by their types (rule R10); what is left to check is the range of a jump's delta (rule
R54), the opcode range of a layout (rule R56), and that an assignment of numbers is one that the source
allows (rule R6). -/

namespace Sys2Proof

/-- The delta of a jump fits the 12-bit two's-complement offset field: bits 15:12 all equal bit 11, so
it is -2048 to +2047 (rules R54, R63). -/
def deltaFits (delta : Word) : Bool :=
  (delta.setWidth 12).signExtend 16 == delta

/-- An instruction that some word encodes. -/
def Instr.wellFormed : Instr → Bool
  | .add _ _ _ => true
  | .sub _ _ _ => true
  | .and _ _ _ => true
  | .or _ _ _ => true
  | .xor _ _ _ => true
  | .not _ _ => true
  | .shl _ _ _ => true
  | .shr _ _ _ => true
  | .ldr _ _ => true
  | .str _ _ => true
  | .cmp _ _ => true
  | .ret => true
  | .push _ => true
  | .pop _ => true
  | .ld _ _ => true
  | .st _ _ => true
  | .addi _ _ => true
  | .andi _ _ => true
  | .ori _ _ => true
  | .lui _ _ => true
  | .cmpi _ _ => true
  | .call delta => deltaFits delta
  | .jmp delta => deltaFits delta
  | .jz delta => deltaFits delta
  | .jnz delta => deltaFits delta
  | .jgt delta => deltaFits delta
  | .nop => true
  | .mfs _ _ => true
  | .mts _ _ => true
  | .sysall => true
  | .halt => true

/-- A field tuple whose opcode selects its layout (rule R56). -/
def Fields.wellFormed (enc : Config.Enc) : Fields → Bool
  | .rType opcode _ _ _ _ => layoutOf enc opcode == some .rType
  | .iType opcode _ _ => 0x2 ≤ opcode.toNat && opcode.toNat ≤ 0x8
  | .jType opcode _ => 0x9 ≤ opcode.toNat && opcode.toNat ≤ 0xD
  | .eType _ _ _ _ => true

/-- An assignment of numbers "consistent with the ranges of §9 and the fixed subcodes 0x0, 0xE, 0xF"
(`ENC` in the last table of `spec/92_eei_decisions.md`): I-type opcodes 0x2 to 0x8, J-type 0x9 to 0xD,
R-type in what is left, selectors 0 to 2 (rules R19, R56), and no number given twice. -/
def Config.Enc.wellFormed (enc : Config.Enc) : Bool :=
  ROp.all.all (fun o => (o.code enc).1 == 0x0 || (o.code enc).1 == 0x1 || (o.code enc).1 == 0xE) &&
  IOp.all.all (fun o => 0x2 ≤ (o.code enc).toNat && (o.code enc).toNat ≤ 0x8) &&
  JOp.all.all (fun o => 0x9 ≤ (o.code enc).toNat && (o.code enc).toNat ≤ 0xD) &&
  Special.all.all (fun r => (r.code enc).toNat ≤ 2) &&
  decide (ROp.all.map (ROp.code enc)).Nodup && decide (IOp.all.map (IOp.code enc)).Nodup &&
  decide (JOp.all.map (JOp.code enc)).Nodup && decide (EOp.all.map (EOp.code enc)).Nodup &&
  decide (Special.all.map (Special.code enc)).Nodup

end Sys2Proof
end

