-- ==== Sys2Proof/Safety.lean ====
section
/-! DEFINITION. The terms that claims use: the engine states and the end of a run (rules R169, R181), the
invariant of the machine, what a step leaves unchanged, and which bits of a word an instruction uses. -/

namespace Sys2Proof.Machine

/-! ## Engine states and the end of a run -/

/-- The engine's states as predicates of the machine's state (rule R169). Loaded and Running "differ in
nothing a rule reads" and are one here (assumption 6). -/
inductive EngineState where
  | running
  | halted
  | faulted
  deriving DecidableEq, Repr

/-- The engine state of `s`, the fault latch tested first (rules R81, R169). -/
def engineState (s : State) : EngineState :=
  match s.fault with
  | some _ => .faulted
  | none => if s.halted then .halted else .running

/-- A run that has ended successfully (rule R181). -/
def EndedSuccessfully (s : State) : Prop := s.halted = true ∧ s.fault = none

/-- A run that has ended unsuccessfully (rule R181). -/
def EndedUnsuccessfully (s : State) : Prop := s.fault ≠ none

/-! ## The program-boundary check -/

/-- The two bytes at pc lie outside the program interval, `pc + 2` saturating at 0xFFFF (rule R82). -/
def OutsideProgram (s : State) : Prop :=
  s.pc.toNat < s.programStart.toNat ∨ s.programEnd.toNat < min (s.pc.toNat + 2) 0xFFFF

/-- A step of `s` gets past the boundary check and the fetch, and the word it reads is `w` (rules R81 to
R83). -/
def Fetches (s : State) (w : Word) : Prop :=
  s.fault = none ∧ s.halted = false ∧ ¬ OutsideProgram s ∧ s.pc ≠ 0xFFFF#16 ∧
    wordOfBytes (s.readByte s.pc) (s.readByte (s.pc + 1)) = w

/-! ## The invariant -/

/-- The word that stands just before pc, where a fault after the fetch leaves it (rule R170). -/
def wordBeforePc (s : State) : Word :=
  wordOfBytes (s.readByte (s.pc - 2)) (s.readByte (s.pc - 1))

/-- The instruction that a fault after the fetch leaves just before pc, if that word is one. -/
def DecodedBeforePc (s : State) (i : Instr) : Prop :=
  decode s.params.enc (wordBeforePc s) = .ok i

/-- A latched fault is one that rule R162 lists, under its condition, with the payload of rule R160 and pc
where rule R170 leaves it. -/
def FaultExplained (s : State) : Prop :=
  match s.fault with
  | none => True
  | some (.invalidInstruction w e) => wordBeforePc s = w ∧ decode s.params.enc w = .error e
  | some (.memoryOutOfBounds a) =>
    a = 0xFFFF#16 ∧
      ((s.pc = 0xFFFF#16 ∧ ¬ OutsideProgram s) ∨
        (s.params.eaIndirect = .contents ∧ ∃ rd rs, s.reg rs = 0xFFFF#16 ∧
          (DecodedBeforePc s (.ldr rd rs) ∨ DecodedBeforePc s (.str rd rs))))
  | some (.programBoundsViolation p e lo hi) =>
    p = s.pc ∧ e.toNat = min (s.pc.toNat + 2) 0xFFFF ∧ lo = s.programStart ∧ hi = s.programEnd ∧
      OutsideProgram s
  | some .stackOverflow =>
    (s.sp.toNat < 2 ∧ ((∃ rs, DecodedBeforePc s (.push rs)) ∨ ∃ d, DecodedBeforePc s (.call d))) ∨
    (s.sp = 0xFFFF#16 ∧ ((∃ rd, DecodedBeforePc s (.pop rd)) ∨ DecodedBeforePc s .ret))
  | some .notImplemented => DecodedBeforePc s .sysall

/-- The invariant of the machine: memory is in its canonical form, Halted and Faulted exclude each other
(rule R81), and a latched fault is explained. -/
def Inv (s : State) : Prop :=
  Memory.wf s.mem = true ∧ ¬ (s.halted = true ∧ s.fault ≠ none) ∧ FaultExplained s

/-- The fault that an instruction's handler raises in `s`, if any (the handlers' rows of rule R162). -/
def handlerFault (s : State) : Instr → Option Fault
  | .ldr _ rs | .str _ rs =>
    if s.params.eaIndirect = .contents ∧ s.reg rs = 0xFFFF#16 then some (.memoryOutOfBounds 0xFFFF) else none
  | .push _ | .call _ => if s.sp.toNat < 2 then some .stackOverflow else none
  | .pop _ | .ret => if s.sp = 0xFFFF#16 then some .stackOverflow else none
  | .sysall => some .notImplemented
  | .add _ _ _ | .sub _ _ _ | .and _ _ _ | .or _ _ _ | .xor _ _ _ | .not _ _ => none
  | .shl _ _ _ | .shr _ _ _ | .cmp _ _ | .addi _ _ | .andi _ _ | .ori _ _ | .cmpi _ _ => none
  | .ld _ _ | .st _ _ | .lui _ _ | .jmp _ | .jz _ | .jnz _ | .jgt _ => none
  | .nop | .mfs _ _ | .mts _ _ | .halt => none

/-- A step of `s` raises a fault: outside the interval, at 0xFFFF, on a word that is no instruction, or in
the handler (rule R162). -/
def Raises (s : State) : Prop :=
  s.fault = none ∧ s.halted = false ∧
    (OutsideProgram s ∨ s.pc = 0xFFFF#16 ∨
      ∃ w, Fetches s w ∧
        ((∃ e, decode s.params.enc w = .error e) ∨
          ∃ i, decode s.params.enc w = .ok i ∧ handlerFault s i ≠ none))

/-! ## What a step leaves unchanged -/

/-- After, `x[rd]` is `v` unless rd is R0, and every other register is as before (rules R11, R12). -/
def RegWritten (rd : Reg) (v : Word) (s t : State) : Prop :=
  ∀ q : Reg, t.reg q = if q = rd ∧ q ≠ 0#3 then v else s.reg q

/-- Every general register is as before. -/
def SameRegs (s t : State) : Prop := ∀ q : Reg, t.reg q = s.reg q

/-- Every byte of memory reads as before. -/
def SameMemory (s t : State) : Prop := ∀ b : Word, t.readByte b = s.readByte b

/-- After, the bytes at `addr` and `addr + 1` hold the word `v`, low byte first, and every other byte
reads as before (rule R36). -/
def WordStored (addr v : Word) (s t : State) : Prop :=
  ∀ b : Word, t.readByte b =
    if b = addr then v.extractLsb' 0 8
    else if b = addr + 1 then v.extractLsb' 8 8
    else s.readByte b

/-- The halted bit, the program interval, the fault latch and the parameters are as before. -/
def SameControl (s t : State) : Prop :=
  t.halted = s.halted ∧ t.programStart = s.programStart ∧ t.programEnd = s.programEnd ∧
    t.fault = s.fault ∧ t.params = s.params

/-- The general registers hold `v` in rd and nothing else new, the flags are `f`, and nothing else
changes. -/
def RegAndFlagsWritten (rd : Reg) (v : Word) (f : Flags) (s t : State) : Prop :=
  RegWritten rd v s t ∧ t.flags = f ∧ t.pc = s.pc ∧ t.sp = s.sp ∧ SameMemory s t ∧ SameControl s t

/-- The word `v` is stored at `addr` and nothing else changes. -/
def OnlyWordStored (addr v : Word) (s t : State) : Prop :=
  WordStored addr v s t ∧ SameRegs s t ∧ t.flags = s.flags ∧ t.pc = s.pc ∧ t.sp = s.sp ∧ SameControl s t

/-! ## Values in the words of the spec, on unbounded numbers -/

/-- The word that stands at `addr` and `addr + 1`, low byte first (rules R35, R37). -/
def wordAt (s : State) (addr : Word) : Word :=
  BitVec.ofNat 16 ((s.readByte addr).toNat + 256 * (s.readByte (addr + 1)).toNat)

/-- `sext_8(v)`: `v` if `v < 0x80`, else `v + 0xFF00` (rule R7). -/
def signed8 (v : Byte) : Word :=
  if v.toNat < 0x80 then BitVec.ofNat 16 v.toNat else BitVec.ofNat 16 (v.toNat + 0xFF00)

/-- `sext_12(v)`: `v` if `v < 0x800`, else `v + 0xF000` (rule R7). -/
def signed12 (v : BitVec 12) : Word :=
  if v.toNat < 0x800 then BitVec.ofNat 16 v.toNat else BitVec.ofNat 16 (v.toNat + 0xF000)

/-- `zext_8(v)` (rule R7). -/
def unsigned8 (v : Byte) : Word := BitVec.ofNat 16 v.toNat

/-- The flags of an addition, from the exact sum and the sign bits (rules R90, R91). -/
def flagsOfSum (a b : Word) : Flags :=
  let r := (a.toNat + b.toNat) % 0x10000
  { z := decide (r = 0)
    n := decide (0x8000 ≤ r)
    c := decide (0xFFFF < a.toNat + b.toNat)
    v := decide ((a.toNat < 0x8000 ∧ b.toNat < 0x8000 ∧ 0x8000 ≤ r) ∨
      (0x8000 ≤ a.toNat ∧ 0x8000 ≤ b.toNat ∧ r < 0x8000)) }

/-- The flags of a subtraction, from the exact difference and the sign bits (rules R90, R92). -/
def flagsOfDifference (a b : Word) : Flags :=
  let r := (a.toNat + 0x10000 - b.toNat) % 0x10000
  { z := decide (r = 0)
    n := decide (0x8000 ≤ r)
    c := decide (a.toNat < b.toNat)
    v := decide ((a.toNat < 0x8000 ∧ 0x8000 ≤ b.toNat ∧ 0x8000 ≤ r) ∨
      (0x8000 ≤ a.toNat ∧ b.toNat < 0x8000 ∧ r < 0x8000)) }

/-- Z and N from the result, C as given, V clear (rules R93, R106, R107). -/
def flagsOfResult (r : Nat) (carry : Bool) : Flags :=
  { z := decide (r = 0), n := decide (0x8000 ≤ r), c := carry, v := false }

/-- `FLAGS16 = (Z ? 1 : 0) | (C ? 2 : 0) | (N ? 4 : 0) | (V ? 8 : 0)`, as a sum (rule R17). -/
def flags16 (f : Flags) : Word :=
  BitVec.ofNat 16 (f.z.toNat + 2 * f.c.toNat + 4 * f.n.toNat + 8 * f.v.toNat)

/-! ## The fields of a word (rules R52 to R55) -/

/-- Bits 15:12. -/
abbrev opcodeOf (w : Word) : BitVec 4 := w.extractLsb' 12 4

/-- Bits 11:9 of an R-type word. -/
abbrev rdOf (w : Word) : Reg := w.extractLsb' 9 3

/-- Bits 8:6 of an R-type word. -/
abbrev rsOf (w : Word) : Reg := w.extractLsb' 6 3

/-- Bits 5:3 of an R-type word. -/
abbrev rtOf (w : Word) : Reg := w.extractLsb' 3 3

/-- Bits 2:0 of an R-type word. -/
abbrev functOf (w : Word) : BitVec 3 := w.extractLsb' 0 3

/-- Bits 11:9 of an I-type word. -/
abbrev iRtOf (w : Word) : Reg := w.extractLsb' 9 3

/-- Bits 7:0 of an I-type word. -/
abbrev iImm8Of (w : Word) : Byte := w.extractLsb' 0 8

/-- Bits 11:0 of a J-type word. -/
abbrev jOffsetOf (w : Word) : BitVec 12 := w.extractLsb' 0 12

/-- Bits 11:8 of an E-type word. -/
abbrev subcodeOf (w : Word) : BitVec 4 := w.extractLsb' 8 4

/-- Bits 7:5 of an E-type word. -/
abbrev eRsOf (w : Word) : Reg := w.extractLsb' 5 3

/-- Bits 4:2 of an E-type word. -/
abbrev eRtOf (w : Word) : Reg := w.extractLsb' 2 3

/-! ## Which instruction writes what -/

/-- The instructions whose step may write the flags (the table of rule R16). -/
def writesFlags : Instr → Bool
  | .add _ _ _ | .sub _ _ _ | .and _ _ _ | .or _ _ _ | .xor _ _ _ | .not _ _ => true
  | .shl _ _ _ | .shr _ _ _ | .cmp _ _ => true
  | .addi _ _ | .andi _ _ | .ori _ _ | .cmpi _ _ => true
  | .mts sel _ => sel == .flags
  | .ldr _ _ | .str _ _ | .ret | .push _ | .pop _ | .ld _ _ | .st _ _ | .lui _ _ => false
  | .call _ | .jmp _ | .jz _ | .jnz _ | .jgt _ | .nop | .mfs _ _ | .sysall | .halt => false

/-- The instructions that may write pc beyond the fetch's advance (rules R14, R146). -/
def writesPc : Instr → Bool
  | .call _ | .jmp _ | .jz _ | .jnz _ | .jgt _ | .ret => true
  | .mts sel _ => sel == .pc
  | .add _ _ _ | .sub _ _ _ | .and _ _ _ | .or _ _ _ | .xor _ _ _ | .not _ _ => false
  | .shl _ _ _ | .shr _ _ _ | .cmp _ _ | .addi _ _ | .andi _ _ | .ori _ _ | .cmpi _ _ => false
  | .ldr _ _ | .str _ _ | .push _ | .pop _ | .ld _ _ | .st _ _ | .lui _ _ => false
  | .nop | .mfs _ _ | .sysall | .halt => false

/-- The instructions that may write sp (rule R15). -/
def writesSp : Instr → Bool
  | .call _ | .ret | .push _ | .pop _ => true
  | .mts sel _ => sel == .sp
  | .add _ _ _ | .sub _ _ _ | .and _ _ _ | .or _ _ _ | .xor _ _ _ | .not _ _ => false
  | .shl _ _ _ | .shr _ _ _ | .cmp _ _ | .addi _ _ | .andi _ _ | .ori _ _ | .cmpi _ _ => false
  | .ldr _ _ | .str _ _ | .ld _ _ | .st _ _ | .lui _ _ | .jmp _ | .jz _ | .jnz _ | .jgt _ => false
  | .nop | .mfs _ _ | .sysall | .halt => false

/-- The general register that an instruction writes, if any (rule R64). -/
def destination : Instr → Option Reg
  | .add rd _ _ | .sub rd _ _ | .and rd _ _ | .or rd _ _ | .xor rd _ _ | .not rd _ => some rd
  | .shl rd _ _ | .shr rd _ _ | .ldr rd _ | .pop rd => some rd
  | .ld rt _ | .addi rt _ | .andi rt _ | .ori rt _ | .lui rt _ | .mfs rt _ => some rt
  | .cmp _ _ | .cmpi _ _ | .str _ _ | .st _ _ | .push _ | .ret | .mts _ _ => none
  | .call _ | .jmp _ | .jz _ | .jnz _ | .jgt _ | .nop | .sysall | .halt => none

/-- The address of the word that an instruction stores to in `s`, if it stores (rules R31, R39). -/
def storeAddress (s : State) : Instr → Option Word
  | .st _ imm8 => some (literalAddress imm8)
  | .str _ rs => some (indirectAddress s rs)
  | .push _ => some (s.sp - 2)
  | .call _ => some (s.sp - 2)
  | .add _ _ _ | .sub _ _ _ | .and _ _ _ | .or _ _ _ | .xor _ _ _ | .not _ _ => none
  | .shl _ _ _ | .shr _ _ _ | .cmp _ _ | .addi _ _ | .andi _ _ | .ori _ _ | .cmpi _ _ => none
  | .ldr _ _ | .ret | .pop _ | .ld _ _ | .lui _ _ | .jmp _ | .jz _ | .jnz _ | .jgt _ => none
  | .nop | .mfs _ _ | .mts _ _ | .sysall | .halt => none

/-- The instructions whose meaning reads the parameters (rules R119, R134); the decoder alone reads
`ENC`. -/
def readsParams : Instr → Bool
  | .ldr _ _ | .str _ _ | .ori _ _ => true
  | .add _ _ _ | .sub _ _ _ | .and _ _ _ | .or _ _ _ | .xor _ _ _ | .not _ _ => false
  | .shl _ _ _ | .shr _ _ _ | .cmp _ _ | .addi _ _ | .andi _ _ | .cmpi _ _ | .lui _ _ => false
  | .ret | .push _ | .pop _ | .ld _ _ | .st _ _ | .call _ | .jmp _ | .jz _ | .jnz _ | .jgt _ => false
  | .nop | .mfs _ _ | .mts _ _ | .sysall | .halt => false

/-! ## The bits that an instruction uses -/

/-- The bits of a word that select the instruction or one of its operands; the others are ignored (rules
R64, R65). -/
def usedBits : Instr → Word
  | .add _ _ _ => 0xFFFF
  | .sub _ _ _ => 0xFFFF
  | .and _ _ _ => 0xFFFF
  | .or _ _ _ => 0xFFFF
  | .xor _ _ _ => 0xFFFF
  | .not _ _ => 0xFFC7
  | .shl _ _ _ => 0xFFFF
  | .shr _ _ _ => 0xFFFF
  | .ldr _ _ => 0xFFC7
  | .str _ _ => 0xFFC7
  | .cmp _ _ => 0xF1FF
  | .ret => 0xF007
  | .push _ => 0xF1C7
  | .pop _ => 0xFE07
  | .ld _ _ => 0xFEFF
  | .st _ _ => 0xFEFF
  | .addi _ _ => 0xFEFF
  | .andi _ _ => 0xFEFF
  | .ori _ _ => 0xFEFF
  | .lui _ _ => 0xFEFF
  | .cmpi _ _ => 0xFEFF
  | .call _ => 0xFFFF
  | .jmp _ => 0xFFFF
  | .jz _ => 0xFFFF
  | .jnz _ => 0xFFFF
  | .jgt _ => 0xFFFF
  | .nop => 0xFF00
  | .mfs _ _ => 0xFFFC
  | .mts _ _ => 0xFFFC
  | .sysall => 0xFF00
  | .halt => 0xFF00

end Sys2Proof.Machine
end

