-- ==== Sys2Proof/Certificates/Slice0/Obligations.lean ====
section
/-! DEFINITION. The statements for the provers. Each says in its docstring which rule of the spec it
formalises; the hypotheses' witnesses stand in `Sys2Proof/Tests/Slice0.lean`. `decode .spec` is the decoder
under the spec's own assignment of numbers (rules R58 to R62), `decode s.params.enc` that of a machine under
its own `ENC` (rule R6). -/

open Sys2Proof Sys2Proof.Machine

/-! ## Encoding -/

/-- Decode and encode agree on every well-formed instruction, under every assignment of numbers that the
source allows (rules R6, R68, R72; which assignments those are is assumption 5). -/
def Obligations.DecodeEncodeRoundTrip : Prop :=
  ∀ (enc : Config.Enc) (i : Instr), enc.wellFormed = true → i.wellFormed = true →
    decode enc (encode enc i) = .ok i

/-- The word codec is a bijection between the words with a layout and their field tuples, under every
`ENC`; under the spec's, the words with a layout are those whose opcode is not 0xE (rules R56, R69). -/
def Obligations.WordCodecIsBijection : Prop :=
  (∀ (enc : Config.Enc) (w : Word), layoutOf enc (opcodeOf w) ≠ none →
    ∃ f, splitWord enc w = .ok f ∧ f.wellFormed enc = true ∧ joinFields f = w) ∧
  (∀ (enc : Config.Enc) (f : Fields), f.wellFormed enc = true → splitWord enc (joinFields f) = .ok f) ∧
  ∀ w : Word, layoutOf .spec (opcodeOf w) ≠ none ↔ opcodeOf w ≠ 0xE#4

/-- Under every `ENC` what decode gives is well-formed, and its canonical encoding is the word with every
ignored bit cleared (rules R64, R65, R72). -/
def Obligations.EncodeOfDecodeClearsIgnoredBits : Prop :=
  ∀ (enc : Config.Enc) (w : Word) (i : Instr), decode enc w = .ok i →
    i.wellFormed = true ∧ encode enc i = w &&& usedBits i

/-- Ignored bits select nothing: under every `ENC`, words that agree on the bits an instruction uses
decode to it (rule R65); under the spec's the word 0x0000 is `Add R0, R0, R0`, which writes no register
and sets Z, clears N, C, V, and the word 0xFFFF is Halt. -/
def Obligations.IgnoredBitsSelectNothing : Prop :=
  (∀ (enc : Config.Enc) (w w' : Word) (i : Instr), decode enc w = .ok i →
    w' &&& usedBits i = w &&& usedBits i → decode enc w' = .ok i) ∧
  decode .spec 0x0000 = .ok (.add 0 0 0) ∧ decode .spec 0xFFFF = .ok .halt ∧
  ∀ s : State, exec (.add 0 0 0) s =
    .next { s with flags := { z := true, n := false, c := false, v := false } }

/-- Which words are no instruction under the spec's `ENC`, and with which decode error; every other word
is one (rules R66, R68). -/
def Obligations.DecodeErrorsPartitionTheWords : Prop :=
  ∀ w : Word,
    if opcodeOf w = 0xE#4 then decode .spec w = .error (.unassignedOpcode 0xE)
    else if opcodeOf w = 0x1#4 ∧ 6 ≤ (functOf w).toNat then
      decode .spec w = .error (.invalidRType 1 (functOf w))
    else if opcodeOf w = 0xF#4 ∧ (subcodeOf w = 0x1#4 ∨ subcodeOf w = 0x2#4) ∧ 3 ≤ (eRsOf w).toNat then
      decode .spec w = .error (.invalidSpecialRegister (eRsOf w))
    else if opcodeOf w = 0xF#4 ∧ 0x3 ≤ (subcodeOf w).toNat ∧ (subcodeOf w).toNat ≤ 0xD then
      decode .spec w = .error (.invalidEType (subcodeOf w))
    else ∃ i, decode .spec w = .ok i

/-- Words written out from the encoding tables decode, under the spec's `ENC`, to the instructions they
stand for. -/
def Obligations.SampleWordsDecode : Prop :=
  decode .spec 0b0000011001010000 = .ok (.add 3 1 2) ∧
  decode .spec 0b0001011101000001 = .ok (.str 3 5) ∧
  decode .spec 0b0100001011111111 = .ok (.addi 1 0xFF) ∧
  decode .spec 0b1010111111111110 = .ok (.jmp 0xFFFE) ∧
  decode .spec 0b1111000101000100 = .ok (.mfs 1 .flags) ∧
  decode .spec 0b1110000000000000 = .error (.unassignedOpcode 0xE)

/-- The assembly line of an instruction assembles to it, and a number outside the range that rule R70
gives its mnemonic does not assemble: -128 to 127 for ADDI and CMPI, 0 to 255 for LD, ST, ANDI, ORI and
LUI, -2048 to 2047 for the jumps. A line is a mnemonic and its operands, not characters (assumption 7). -/
def Obligations.AssembleOfAssemblyLine : Prop :=
  (∀ i : Instr, i.wellFormed = true → assemble i.asm = some i) ∧
  (∀ (m : String) (rt : Reg) (n : Int), m ∈ ["ADDI", "CMPI"] → n < -128 ∨ 127 < n →
    assemble { mnemonic := m, operands := [.reg rt, .num n] } = none) ∧
  (∀ (m : String) (rt : Reg) (n : Int), m ∈ ["LD", "ST", "ANDI", "ORI", "LUI"] → n < 0 ∨ 255 < n →
    assemble { mnemonic := m, operands := [.reg rt, .num n] } = none) ∧
  ∀ (m : String) (n : Int), n < -2048 ∨ 2047 < n →
    assemble { mnemonic := m, operands := [.num n] } = none

/-! ## Registers, memory and the shared functions -/

/-- R0 reads 0 whatever is written to it, and a write to it changes nothing; R1 to R7 return the last
value stored, and a write changes no other register (rules R11, R12). -/
def Obligations.RegisterReadAfterWrite : Prop :=
  (∀ (s : State) (v : Word), s.reg 0#3 = 0 ∧ (s.setReg 0#3 v).reg 0#3 = 0 ∧ s.setReg 0#3 v = s) ∧
  ∀ (s : State) (r : Reg) (v : Word), r ≠ 0#3 →
    (s.setReg r v).reg r = v ∧ ∀ q : Reg, q ≠ r → (s.setReg r v).reg q = s.reg q

/-- A word access fails exactly at 0xFFFF, with nothing changed; else a read gives the low byte from the
lower address and a write stores the two bytes and changes nothing else (rules R35, R36). -/
def Obligations.WordAccessIsLittleEndian : Prop :=
  (∀ (s : State) (a : Word), a ≠ 0xFFFF#16 → s.readWord a = .ok (wordAt s a)) ∧
  (∀ s : State, s.readWord 0xFFFF = .error (.memoryOutOfBounds 0xFFFF)) ∧
  (∀ (s : State) (a v : Word), a ≠ 0xFFFF#16 →
    ∃ t, s.writeWord a v = .ok t ∧ WordStored a v s t ∧ t = { s with mem := t.mem }) ∧
  ∀ (s : State) (v : Word), s.writeWord 0xFFFF v = .error (.memoryOutOfBounds 0xFFFF)

/-- The byte order as a program sees it, the sentence that rule R37 marks as derived: a word read at `a +
1` after a word write at `a` gives the high byte written and the byte above it (rule R37). -/
def Obligations.OverlappingWordAccess : Prop :=
  ∀ (s t : State) (a v : Word), s.writeWord a v = .ok t → a + 1 ≠ 0xFFFF#16 →
    t.readWord (a + 1) = .ok (BitVec.ofNat 16 (v.toNat / 256 + 256 * (s.readByte (a + 2)).toNat))

/-- Two memories in canonical form that read the same at every address are the same data. The form is the
model's own (assumption 2). -/
def Obligations.CanonicalMemoryIsUnique : Prop :=
  ∀ m m' : Memory, Memory.wf m = true → Memory.wf m' = true →
    (∀ a, Memory.read m a = Memory.read m' a) → m = m'

/-- What the flags mean after an addition and a subtraction, the facts that rule R96 marks as derived: V
is the signed overflow; after a subtraction Z is equality, C is unsigned less-than, N = V is signed
at-least, and Z clear with N = V is signed greater-than. -/
def Obligations.FlagsMeanOverflowAndOrder : Prop :=
  (∀ a b : Word,
    (addWithFlags a b).1.toNat = (a.toNat + b.toNat) % 0x10000 ∧
    ((addWithFlags a b).2.v = true ↔ (a.toInt + b.toInt < -32768 ∨ 32767 < a.toInt + b.toInt)) ∧
    ((addWithFlags a b).2.c = true ↔ 0xFFFF < a.toNat + b.toNat)) ∧
  (∀ a b : Word,
    (subWithFlags a b).1.toNat = (a.toNat + 0x10000 - b.toNat) % 0x10000 ∧
    ((subWithFlags a b).2.v = true ↔ (a.toInt - b.toInt < -32768 ∨ 32767 < a.toInt - b.toInt)) ∧
    ((subWithFlags a b).2.z = true ↔ a = b) ∧
    ((subWithFlags a b).2.c = true ↔ a.toNat < b.toNat) ∧
    ((subWithFlags a b).2.n = (subWithFlags a b).2.v ↔ b.toInt ≤ a.toInt) ∧
    (((subWithFlags a b).2.z = false ∧ (subWithFlags a b).2.n = (subWithFlags a b).2.v) ↔
      b.toInt < a.toInt)) ∧
  addWithFlags 0x7FFF 0x0001 = (0x8000, { z := false, n := true, c := false, v := true }) ∧
  subWithFlags 0x0000 0x0001 = (0xFFFF, { z := false, n := true, c := true, v := false })

/-! ## Register-register ALU -/

/-- Add and AddImmediate, the latter an addition of the sign-extended immediate (rules R100, R132). -/
def Obligations.AddFormsWriteSumAndFlags : Prop :=
  (∀ w : Word, opcodeOf w = 0x0#4 → functOf w = 0#3 →
    decode .spec w = .ok (.add (rdOf w) (rsOf w) (rtOf w))) ∧
  (∀ w : Word, opcodeOf w = 0x4#4 → decode .spec w = .ok (.addi (iRtOf w) (iImm8Of w))) ∧
  (∀ (rd rs rt : Reg) (s : State), ∃ t, exec (.add rd rs rt) s = .next t ∧
    RegAndFlagsWritten rd (BitVec.ofNat 16 ((s.reg rs).toNat + (s.reg rt).toNat))
      (flagsOfSum (s.reg rs) (s.reg rt)) s t) ∧
  ∀ (rt : Reg) (imm8 : Byte) (s : State), ∃ t, exec (.addi rt imm8) s = .next t ∧
    RegAndFlagsWritten rt (BitVec.ofNat 16 ((s.reg rt).toNat + (signed8 imm8).toNat))
      (flagsOfSum (s.reg rt) (signed8 imm8)) s t

/-- Sub (rule R101). -/
def Obligations.SubWritesDifferenceAndFlags : Prop :=
  (∀ w : Word, opcodeOf w = 0x0#4 → functOf w = 1#3 →
    decode .spec w = .ok (.sub (rdOf w) (rsOf w) (rtOf w))) ∧
  ∀ (rd rs rt : Reg) (s : State), ∃ t, exec (.sub rd rs rt) s = .next t ∧
    RegAndFlagsWritten rd (BitVec.ofNat 16 ((s.reg rs).toNat + 0x10000 - (s.reg rt).toNat))
      (flagsOfDifference (s.reg rs) (s.reg rt)) s t

/-- And, Or, Xor (rules R102, R103, R104). -/
def Obligations.LogicWritesResultAndFlags : Prop :=
  (∀ w : Word, opcodeOf w = 0x0#4 → functOf w = 2#3 →
    decode .spec w = .ok (.and (rdOf w) (rsOf w) (rtOf w))) ∧
  (∀ w : Word, opcodeOf w = 0x0#4 → functOf w = 3#3 →
    decode .spec w = .ok (.or (rdOf w) (rsOf w) (rtOf w))) ∧
  (∀ w : Word, opcodeOf w = 0x0#4 → functOf w = 4#3 →
    decode .spec w = .ok (.xor (rdOf w) (rsOf w) (rtOf w))) ∧
  ∀ (rd rs rt : Reg) (s : State),
    (∃ t, exec (.and rd rs rt) s = .next t ∧
      RegAndFlagsWritten rd (s.reg rs &&& s.reg rt)
        (flagsOfResult (s.reg rs &&& s.reg rt).toNat false) s t) ∧
    (∃ t, exec (.or rd rs rt) s = .next t ∧
      RegAndFlagsWritten rd (s.reg rs ||| s.reg rt)
        (flagsOfResult (s.reg rs ||| s.reg rt).toNat false) s t) ∧
    (∃ t, exec (.xor rd rs rt) s = .next t ∧
      RegAndFlagsWritten rd (s.reg rs ^^^ s.reg rt)
        (flagsOfResult (s.reg rs ^^^ s.reg rt).toNat false) s t)

/-- Not: the complement `0xFFFF - x[rs]`; the rt field is ignored (rule R105). -/
def Obligations.NotWritesComplementAndFlags : Prop :=
  (∀ w : Word, opcodeOf w = 0x0#4 → functOf w = 5#3 → decode .spec w = .ok (.not (rdOf w) (rsOf w))) ∧
  ∀ (rd rs : Reg) (s : State), ∃ t, exec (.not rd rs) s = .next t ∧
    RegAndFlagsWritten rd (BitVec.ofNat 16 (0xFFFF - (s.reg rs).toNat))
      (flagsOfResult (0xFFFF - (s.reg rs).toNat) false) s t

/-- ShiftLeft and ShiftRight (logical) by the low four bits of the amount register: by 0 a copy that keeps
the flags, else C is the last bit shifted out, past bit 15 or past bit 0 (rules R106, R107). -/
def Obligations.ShiftsWriteResultAndFlags : Prop :=
  (∀ w : Word, opcodeOf w = 0x0#4 → functOf w = 6#3 →
    decode .spec w = .ok (.shl (rdOf w) (rsOf w) (rtOf w))) ∧
  (∀ w : Word, opcodeOf w = 0x0#4 → functOf w = 7#3 →
    decode .spec w = .ok (.shr (rdOf w) (rsOf w) (rtOf w))) ∧
  (∀ (rd rs rt : Reg) (s : State), ∃ t, exec (.shl rd rs rt) s = .next t ∧
    if (s.reg rt).toNat % 16 = 0 then RegAndFlagsWritten rd (s.reg rs) s.flags s t
    else
      RegAndFlagsWritten rd (BitVec.ofNat 16 ((s.reg rs).toNat * 2 ^ ((s.reg rt).toNat % 16)))
        (flagsOfResult ((s.reg rs).toNat * 2 ^ ((s.reg rt).toNat % 16) % 0x10000)
          (decide ((s.reg rs).toNat / 2 ^ (16 - (s.reg rt).toNat % 16) % 2 = 1))) s t) ∧
  ∀ (rd rs rt : Reg) (s : State), ∃ t, exec (.shr rd rs rt) s = .next t ∧
    if (s.reg rt).toNat % 16 = 0 then RegAndFlagsWritten rd (s.reg rs) s.flags s t
    else
      RegAndFlagsWritten rd (BitVec.ofNat 16 ((s.reg rs).toNat / 2 ^ ((s.reg rt).toNat % 16)))
        (flagsOfResult ((s.reg rs).toNat / 2 ^ ((s.reg rt).toNat % 16))
          (decide ((s.reg rs).toNat / 2 ^ ((s.reg rt).toNat % 16 - 1) % 2 = 1))) s t

/-- Compare and CompareImmediate: the flags of the subtraction and nothing else (rules R108, R136). -/
def Obligations.ComparesWriteFlagsOnly : Prop :=
  (∀ w : Word, opcodeOf w = 0x1#4 → functOf w = 2#3 → decode .spec w = .ok (.cmp (rsOf w) (rtOf w))) ∧
  (∀ w : Word, opcodeOf w = 0x8#4 → decode .spec w = .ok (.cmpi (iRtOf w) (iImm8Of w))) ∧
  (∀ (rs rt : Reg) (s : State),
    exec (.cmp rs rt) s = .next { s with flags := flagsOfDifference (s.reg rs) (s.reg rt) }) ∧
  ∀ (rt : Reg) (imm8 : Byte) (s : State),
    exec (.cmpi rt imm8) s = .next { s with flags := flagsOfDifference (s.reg rt) (signed8 imm8) }

/-- Jump(GreaterThan) right after Compare is taken exactly when `x[rs]` is signed greater than `x[rt]`
(rules R108, R145). -/
def Obligations.CompareThenGreaterThan : Prop :=
  ∀ (rs rt : Reg) (d : Word) (s : State), ∃ t u, exec (.cmp rs rt) s = .next t ∧
    exec (.jgt d) t = .next u ∧
    u.pc = if (s.reg rt).toInt < (s.reg rs).toInt then s.pc + d else s.pc

/-! ## Register-addressed memory and the stack -/

/-- LoadIndirect (rules R119, R120): the address under each setting of `EA_INDIRECT`, the load, and the
fault at 0xFFFF, which only `contents` can reach. -/
def Obligations.LoadIndirectLoadsWord : Prop :=
  (∀ w : Word, opcodeOf w = 0x1#4 → functOf w = 0#3 → decode .spec w = .ok (.ldr (rdOf w) (rsOf w))) ∧
  (∀ (rs : Reg) (s : State), s.params.eaIndirect = .regnum →
    indirectAddress s rs = BitVec.ofNat 16 rs.toNat) ∧
  (∀ (rs : Reg) (s : State), s.params.eaIndirect = .contents → indirectAddress s rs = s.reg rs) ∧
  (∀ (rd rs : Reg) (s : State), (s.params.eaIndirect = .regnum ∨ s.reg rs ≠ 0xFFFF#16) →
    ∃ t, exec (.ldr rd rs) s = .next t ∧
      RegAndFlagsWritten rd (wordAt s (indirectAddress s rs)) s.flags s t) ∧
  (∀ (rd rs : Reg) (s : State), s.params.eaIndirect = .contents → s.reg rs = 0xFFFF#16 →
    exec (.ldr rd rs) s = .next { s with fault := some (.memoryOutOfBounds 0xFFFF) })

/-- StoreIndirect: rd is the data register, no register is written (rule R121). -/
def Obligations.StoreIndirectStoresWord : Prop :=
  (∀ w : Word, opcodeOf w = 0x1#4 → functOf w = 1#3 → decode .spec w = .ok (.str (rdOf w) (rsOf w))) ∧
  (∀ (rs : Reg) (s : State), s.params.eaIndirect = .regnum →
    indirectAddress s rs = BitVec.ofNat 16 rs.toNat) ∧
  (∀ (rs : Reg) (s : State), s.params.eaIndirect = .contents → indirectAddress s rs = s.reg rs) ∧
  (∀ (rd rs : Reg) (s : State), (s.params.eaIndirect = .regnum ∨ s.reg rs ≠ 0xFFFF#16) →
    ∃ t, exec (.str rd rs) s = .next t ∧ OnlyWordStored (indirectAddress s rs) (s.reg rd) s t) ∧
  (∀ (rd rs : Reg) (s : State), s.params.eaIndirect = .contents → s.reg rs = 0xFFFF#16 →
    exec (.str rd rs) s = .next { s with fault := some (.memoryOutOfBounds 0xFFFF) })

/-- Push (rule R122): `sp - 2`, then the word at the new `sp`; refused with `sp` and memory unchanged when
`sp` is 0 or 1. -/
def Obligations.PushStoresBelowStack : Prop :=
  (∀ w : Word, opcodeOf w = 0x1#4 → functOf w = 4#3 → decode .spec w = .ok (.push (rsOf w))) ∧
  (∀ (rs : Reg) (s : State), 2 ≤ s.sp.toNat →
    ∃ t, exec (.push rs) s = .next t ∧ t.sp.toNat = s.sp.toNat - 2 ∧
      WordStored (s.sp - 2) (s.reg rs) s t ∧ SameRegs s t ∧ t.flags = s.flags ∧ t.pc = s.pc ∧
      SameControl s t) ∧
  (∀ (rs : Reg) (s : State), s.sp.toNat < 2 →
    exec (.push rs) s = .next { s with fault := some .stackOverflow })

/-- Pop (rule R123): the word at `sp` into rd, then `sp + 2` wrapping; refused with `sp` and rd unchanged
when `sp` is 0xFFFF. -/
def Obligations.PopLoadsFromStack : Prop :=
  (∀ w : Word, opcodeOf w = 0x1#4 → functOf w = 5#3 → decode .spec w = .ok (.pop (rdOf w))) ∧
  (∀ (rd : Reg) (s : State), s.sp ≠ 0xFFFF#16 →
    ∃ t, exec (.pop rd) s = .next t ∧ RegWritten rd (wordAt s s.sp) s t ∧
      t.sp.toNat = (s.sp.toNat + 2) % 0x10000 ∧ t.flags = s.flags ∧ t.pc = s.pc ∧ SameMemory s t ∧
      SameControl s t) ∧
  (∀ (rd : Reg) (s : State), s.sp = 0xFFFF#16 →
    exec (.pop rd) s = .next { s with fault := some .stackOverflow })

/-- Return (rule R124): the word at `sp` into pc, then `sp + 2` wrapping. -/
def Obligations.ReturnPopsIntoPc : Prop :=
  (∀ w : Word, opcodeOf w = 0x1#4 → functOf w = 3#3 → decode .spec w = .ok .ret) ∧
  (∀ s : State, s.sp ≠ 0xFFFF#16 →
    exec .ret s = .next { s with pc := wordAt s s.sp, sp := s.sp + 2 }) ∧
  (∀ s : State, s.sp = 0xFFFF#16 → exec .ret s = .next { s with fault := some .stackOverflow })

/-- Push then Pop returns the pushed value and restores `sp` (rule R95's test, for every stack pointer
that Push accepts). -/
def Obligations.PushThenPopRestores : Prop :=
  ∀ (rs rd : Reg) (s : State), 2 ≤ s.sp.toNat →
    ∃ t u, exec (.push rs) s = .next t ∧ exec (.pop rd) t = .next u ∧
      RegWritten rd (s.reg rs) s u ∧ u.sp = s.sp ∧ u.pc = s.pc ∧ u.flags = s.flags

/-- Return undoes Call: control comes back to the instruction after the Call with `sp` restored (rules
R124, R141). -/
def Obligations.ReturnUndoesCall : Prop :=
  ∀ (d : Word) (s : State), 2 ≤ s.sp.toNat →
    ∃ t u, exec (.call d) s = .next t ∧ exec .ret t = .next u ∧
      u.pc = s.pc ∧ u.sp = s.sp ∧ SameRegs s u ∧ u.flags = s.flags

/-! ## Immediate instructions -/

/-- Load (rule R130). -/
def Obligations.LoadReadsLiteralAddress : Prop :=
  (∀ w : Word, opcodeOf w = 0x2#4 → decode .spec w = .ok (.ld (iRtOf w) (iImm8Of w))) ∧
  ∀ (rt : Reg) (imm8 : Byte) (s : State), ∃ t, exec (.ld rt imm8) s = .next t ∧
    RegAndFlagsWritten rt (wordAt s (unsigned8 imm8)) s.flags s t

/-- Store (rule R131). -/
def Obligations.StoreWritesLiteralAddress : Prop :=
  (∀ w : Word, opcodeOf w = 0x3#4 → decode .spec w = .ok (.st (iRtOf w) (iImm8Of w))) ∧
  (∀ imm8 : Byte, literalAddress imm8 = unsigned8 imm8) ∧
  ∀ (rt : Reg) (imm8 : Byte) (s : State), ∃ t, exec (.st rt imm8) s = .next t ∧
    OnlyWordStored (literalAddress imm8) (s.reg rt) s t

/-- AndImmediate, with N always clear, and OrImmediate under each setting of `ORI_MODE`; under
`and_compat` OrImmediate is AndImmediate (rules R133, R134). -/
def Obligations.LogicalImmediatesUnderBothModes : Prop :=
  (∀ w : Word, opcodeOf w = 0x5#4 → decode .spec w = .ok (.andi (iRtOf w) (iImm8Of w))) ∧
  (∀ w : Word, opcodeOf w = 0x6#4 → decode .spec w = .ok (.ori (iRtOf w) (iImm8Of w))) ∧
  (∀ (rt : Reg) (imm8 : Byte) (s : State), ∃ t, exec (.andi rt imm8) s = .next t ∧
    RegAndFlagsWritten rt (s.reg rt &&& unsigned8 imm8)
      { z := decide (s.reg rt &&& unsigned8 imm8 = 0), n := false, c := false, v := false } s t) ∧
  (∀ (rt : Reg) (imm8 : Byte) (s : State), s.params.oriMode = .or →
    ∃ t, exec (.ori rt imm8) s = .next t ∧
      RegAndFlagsWritten rt (s.reg rt ||| unsigned8 imm8)
        (flagsOfResult (s.reg rt ||| unsigned8 imm8).toNat false) s t) ∧
  ∀ (rt : Reg) (imm8 : Byte) (s : State), s.params.oriMode = .andCompat →
    exec (.ori rt imm8) s = exec (.andi rt imm8) s

/-- LoadUpperImmediate: `{ imm8, 0x00 }`, no flag touched (rule R135). -/
def Obligations.LoadUpperImmediateWritesHighByte : Prop :=
  (∀ w : Word, opcodeOf w = 0x7#4 → decode .spec w = .ok (.lui (iRtOf w) (iImm8Of w))) ∧
  ∀ (rt : Reg) (imm8 : Byte) (s : State), ∃ t, exec (.lui rt imm8) s = .next t ∧
    RegAndFlagsWritten rt (BitVec.ofNat 16 (imm8.toNat * 256)) s.flags s t

/-- LoadUpperImmediate then OrImmediate builds any 16-bit constant when `ORI_MODE = or`, and leaves 0
under `and_compat` (rule R135). -/
def Obligations.UpperThenOrBuildsConstant : Prop :=
  ∀ (rt : Reg) (hi lo : Byte) (s : State), rt ≠ 0#3 →
    ∃ t u, exec (.lui rt hi) s = .next t ∧ exec (.ori rt lo) t = .next u ∧
      (u.reg rt).toNat = if s.params.oriMode = .or then hi.toNat * 256 + lo.toNat else 0

/-! ## Jumps -/

/-- Call (rule R141): pushes the advanced pc, then jumps; on a full stack neither. -/
def Obligations.CallPushesReturnAddress : Prop :=
  (∀ w : Word, opcodeOf w = 0x9#4 → decode .spec w = .ok (.call (signed12 (jOffsetOf w)))) ∧
  (∀ (d : Word) (s : State), 2 ≤ s.sp.toNat →
    ∃ t, exec (.call d) s = .next t ∧ t.pc = s.pc + d ∧ t.sp.toNat = s.sp.toNat - 2 ∧
      WordStored (s.sp - 2) s.pc s t ∧ SameRegs s t ∧ t.flags = s.flags ∧ SameControl s t) ∧
  (∀ (d : Word) (s : State), s.sp.toNat < 2 →
    exec (.call d) s = .next { s with fault := some .stackOverflow })

/-- The jumps that write pc and nothing else, each with its condition (rules R142 to R145). -/
def Obligations.JumpsWritePcOnly : Prop :=
  (∀ w : Word, opcodeOf w = 0xA#4 → decode .spec w = .ok (.jmp (signed12 (jOffsetOf w)))) ∧
  (∀ w : Word, opcodeOf w = 0xB#4 → decode .spec w = .ok (.jz (signed12 (jOffsetOf w)))) ∧
  (∀ w : Word, opcodeOf w = 0xC#4 → decode .spec w = .ok (.jnz (signed12 (jOffsetOf w)))) ∧
  (∀ w : Word, opcodeOf w = 0xD#4 → decode .spec w = .ok (.jgt (signed12 (jOffsetOf w)))) ∧
  ∀ (d : Word) (s : State),
    exec (.jmp d) s = .next { s with pc := s.pc + d } ∧
    exec (.jz d) s = .next { s with pc := if s.flags.z = true then s.pc + d else s.pc } ∧
    exec (.jnz d) s = .next { s with pc := if s.flags.z = false then s.pc + d else s.pc } ∧
    exec (.jgt d) s = .next { s with
      pc := if s.flags.z = false ∧ s.flags.n = s.flags.v then s.pc + d else s.pc }

/-- The target of a taken jump as a number: the address of the jump, plus 2, plus the signed delta of its
offset field, mod 2^16 (rule R140), on every machine whose `ENC` makes the word a Jump(Unconditional). -/
def Obligations.JumpTargetFromItsAddress : Prop :=
  ∀ (s : State) (w d : Word), Fetches s w → decode s.params.enc w = .ok (.jmp d) →
    ∃ t, step s = .next t ∧
      (t.pc.toNat : Int) = ((s.pc.toNat : Int) + 2 + (jOffsetOf w).toInt) % 0x10000 ∧
      t = { s with pc := t.pc }

/-! ## Extended and system instructions -/

/-- Nop (rule R150): the step changes pc only. Its subcode is 0x0 under every legal `ENC` (rule R61). -/
def Obligations.NopOnlyAdvancesPc : Prop :=
  (∀ (enc : Config.Enc) (w : Word), enc.wellFormed = true → opcodeOf w = 0xF#4 →
    subcodeOf w = 0x0#4 → decode enc w = .ok .nop) ∧
  (∀ s : State, exec .nop s = .next s) ∧
  ∀ (s : State) (w : Word), s.params.enc.wellFormed = true → Fetches s w → opcodeOf w = 0xF#4 →
    subcodeOf w = 0x0#4 → step s = .next { s with pc := s.pc + 2 }

/-- MoveFromSpecial (rule R151), with the selector checked at decode. -/
def Obligations.MoveFromSpecialReads : Prop :=
  (∀ w : Word, opcodeOf w = 0xF#4 → subcodeOf w = 0x1#4 → decode .spec w =
    if eRsOf w = 0#3 then .ok (.mfs (eRtOf w) .pc)
    else if eRsOf w = 1#3 then .ok (.mfs (eRtOf w) .sp)
    else if eRsOf w = 2#3 then .ok (.mfs (eRtOf w) .flags)
    else .error (.invalidSpecialRegister (eRsOf w))) ∧
  ∀ (rt : Reg) (s : State),
    (∃ t, exec (.mfs rt .pc) s = .next t ∧ RegAndFlagsWritten rt s.pc s.flags s t) ∧
    (∃ t, exec (.mfs rt .sp) s = .next t ∧ RegAndFlagsWritten rt s.sp s.flags s t) ∧
    (∃ t, exec (.mfs rt .flags) s = .next t ∧ RegAndFlagsWritten rt (flags16 s.flags) s.flags s t)

/-- MoveToSpecial (rule R152), with the selector checked at decode; what is written to FLAGS reads back as
its low four bits (rule R18). -/
def Obligations.MoveToSpecialWrites : Prop :=
  (∀ w : Word, opcodeOf w = 0xF#4 → subcodeOf w = 0x2#4 → decode .spec w =
    if eRsOf w = 0#3 then .ok (.mts .pc (eRtOf w))
    else if eRsOf w = 1#3 then .ok (.mts .sp (eRtOf w))
    else if eRsOf w = 2#3 then .ok (.mts .flags (eRtOf w))
    else .error (.invalidSpecialRegister (eRsOf w))) ∧
  ∀ (rt : Reg) (s : State),
    exec (.mts .pc rt) s = .next { s with pc := s.reg rt } ∧
    exec (.mts .sp rt) s = .next { s with sp := s.reg rt } ∧
    exec (.mts .flags rt) s = .next { s with
      flags :=
        { z := (s.reg rt).getLsbD 0, c := (s.reg rt).getLsbD 1, n := (s.reg rt).getLsbD 2,
          v := (s.reg rt).getLsbD 3 } } ∧
    ∃ t u, exec (.mts .flags rt) s = .next t ∧ exec (.mfs 1 .flags) t = .next u ∧
      u.reg 1 = s.reg rt &&& 0x000F

/-- Sysall (rule R153): always the fault `NotImplemented`, with pc past the word and nothing else
changed. Its subcode is 0xE under every legal `ENC` (rule R61). -/
def Obligations.SysallFaults : Prop :=
  (∀ (enc : Config.Enc) (w : Word), enc.wellFormed = true → opcodeOf w = 0xF#4 →
    subcodeOf w = 0xE#4 → decode enc w = .ok .sysall) ∧
  (∀ s : State, exec .sysall s = .next { s with fault := some .notImplemented }) ∧
  ∀ (s : State) (w : Word), s.params.enc.wellFormed = true → Fetches s w → opcodeOf w = 0xF#4 →
    subcodeOf w = 0xE#4 → step s = .next { s with pc := s.pc + 2, fault := some .notImplemented }

/-- Halt (rule R154): sets `halted`; every later step changes nothing. Its subcode is 0xF under every legal
`ENC` (rule R61). -/
def Obligations.HaltStopsTheRun : Prop :=
  (∀ (enc : Config.Enc) (w : Word), enc.wellFormed = true → opcodeOf w = 0xF#4 →
    subcodeOf w = 0xF#4 → decode enc w = .ok .halt) ∧
  (∀ s : State, exec .halt s = .next { s with halted := true }) ∧
  ∀ (s : State) (w : Word), s.params.enc.wellFormed = true → Fetches s w → opcodeOf w = 0xF#4 →
    subcodeOf w = 0xF#4 →
    stepTransaction s = some (.progress, { s with pc := s.pc + 2, halted := true }) ∧
    stepTransaction { s with pc := s.pc + 2, halted := true } =
      some (.noProgress, { s with pc := s.pc + 2, halted := true })

/-! ## The step -/

/-- A step runs the decoded instruction: where the bytes at pc decode to `i`, the step is `exec` of `i`
on the state with pc advanced by 2; where they do not decode, the step is the fault that carries the raw
word and the decode error, with pc advanced and nothing else changed (rule R84). The decoder is that of the
machine's own `ENC` (rule R6, assumption 5). -/
def Obligations.StepRunsDecodedInstruction : Prop :=
  (∀ (s : State) (w : Word) (i : Instr), Fetches s w → decode s.params.enc w = .ok i →
    step s = exec i { s with pc := s.pc + 2 }) ∧
  ∀ (s : State) (w : Word) (e : DecodeError), Fetches s w → decode s.params.enc w = .error e →
    step s = .next { s with pc := s.pc + 2, fault := some (.invalidInstruction w e) }

/-- The boundary check (rule R82): a running machine whose instruction would lie outside the program
interval faults with nothing else changed, pc included; inside it this fault never arises. -/
def Obligations.BoundaryCheckFaults : Prop :=
  (∀ s : State, s.fault = none → s.halted = false → OutsideProgram s →
    step s = .next { s with
      fault := some (.programBoundsViolation s.pc (BitVec.ofNat 16 (min (s.pc.toNat + 2) 0xFFFF))
        s.programStart s.programEnd) }) ∧
  ∀ s t : State, s.fault = none → ¬ OutsideProgram s → step s = .next t →
    ∀ p e lo hi, t.fault ≠ some (.programBoundsViolation p e lo hi)

/-- The fetch (rule R83): inside the interval it fails only at 0xFFFF, and then nothing but the latch
changes; else it reads the little-endian word at pc and advances pc by 2, wrapping. -/
def Obligations.FetchReadsThenAdvances : Prop :=
  (∀ s : State, s.fault = none → s.halted = false → ¬ OutsideProgram s → s.pc = 0xFFFF#16 →
    step s = .next { s with fault := some (.memoryOutOfBounds 0xFFFF) }) ∧
  ∀ s : State, ¬ OutsideProgram s → s.pc ≠ 0xFFFF#16 →
    fetch s = .ok (wordAt s s.pc, { s with pc := BitVec.ofNat 16 ((s.pc.toNat + 2) % 0x10000) })

/-- Faults are precise, the table that rule R170 marks as derived: a step that raises one has changed
nothing but the latch and pc, and pc stays for a fault before the fetch and is past the word for every
later one; the step reports it. -/
def Obligations.FaultsArePrecise : Prop :=
  ∀ (s t : State) (f : Fault), step s = .next t → t.fault = some f →
    stepTransaction s = some (.fault f, t) ∧ t = { s with pc := t.pc, fault := some f } ∧
    match f with
    | .programBoundsViolation _ _ _ _ => t.pc = s.pc
    | .memoryOutOfBounds _ =>
      (s.pc = 0xFFFF#16 ∧ t.pc = s.pc) ∨ (s.pc ≠ 0xFFFF#16 ∧ t.pc = s.pc + 2)
    | .invalidInstruction _ _ => t.pc = s.pc + 2
    | .stackOverflow => t.pc = s.pc + 2
    | .notImplemented => t.pc = s.pc + 2

/-- Halted and Faulted are terminal for STEP, which changes nothing there, and they exclude each other
from power-on on: neither LOAD nor STEP makes both hold (rule R81, which marks the exclusion as
derived). -/
def Obligations.HaltedAndFaultedAreTerminal : Prop :=
  (∀ (s : State) (f : Fault), s.fault = some f → stepTransaction s = some (.fault f, s)) ∧
  (∀ s : State, s.fault = none → s.halted = true → stepTransaction s = some (.noProgress, s)) ∧
  (∀ (p : Config.Params) (m : Memory),
    ¬ ((State.powerOn p m).halted = true ∧ (State.powerOn p m).fault ≠ none)) ∧
  (∀ (s t : State) (bytes : List Byte) (a : Word), s.load bytes a = .next t →
    ¬ (t.halted = true ∧ t.fault ≠ none)) ∧
  ∀ (s t : State) (o : StepOutcome), ¬ (s.halted = true ∧ s.fault ≠ none) →
    stepTransaction s = some (o, t) → ¬ (t.halted = true ∧ t.fault ≠ none)

/-- Every instruction has a meaning in every state: `exec` never stops and never refuses, so the host's
step stops only on a fault that is already latched (that a latched fault is the host's outcome `fault` is
the model's choice, assumption 3). -/
def Obligations.NoInstructionIsRefused : Prop :=
  (∀ (i : Instr) (s : State), ∃ t, exec i s = .next t) ∧
  ∀ s : State, (s.fault = none ∧ ∃ t, step s = .next t) ∨ ∃ f, s.fault = some f ∧ step s = .fault f

/-- A STEP has exactly one of the three outcomes, with the state change of rule R80: no progress changes
nothing, a fault is latched, progress leaves no fault. -/
def Obligations.StepReportsOneOutcome : Prop :=
  ∀ s : State, ∃ o t, stepTransaction s = some (o, t) ∧
    match o with
    | .progress => s.fault = none ∧ s.halted = false ∧ t.fault = none ∧ step s = .next t
    | .noProgress => s.fault = none ∧ s.halted = true ∧ t = s
    | .fault f => t.fault = some f

/-- A RUN that ends has ended Halted or Faulted, and STEP on the state it leaves reports the same and
changes nothing (rules R87, R181). -/
def Obligations.RunEndsHaltedOrFaulted : Prop :=
  ∀ (k : Nat) (s t : State) (o : StepOutcome), runTransaction k s = some (o, t) →
    stepTransaction t = some (o, t) ∧
      ((o = .noProgress ∧ EndedSuccessfully t) ∨ ∃ f, o = .fault f ∧ t.fault = some f)

/-- Self-modifying code: a word stored at pc is the word the next fetch reads (rule R46, marked as derived
there). -/
def Obligations.FetchSeesTheLastStore : Prop :=
  ∀ (s t : State) (v : Word), s.writeWord s.pc v = .ok t → ¬ OutsideProgram t →
    fetch t = .ok (v, { t with pc := t.pc + 2 })

/-! ## Invariants -/

/-- Every step keeps the invariant of the machine: memory in canonical form (the model's own, assumption
2), Halted and Faulted never both (rule R81), and a latched fault one that rule R162 lists, under its
condition, with pc where rule R170 leaves it. -/
def Obligations.StepKeepsInvariant : Prop :=
  ∀ s t : State, Inv s → step s = .next t → Inv t

/-- The invariant, whose memory clause is the model's own canonical form (assumption 2), holds at reset
(the model's state, assumptions 2 and 12), and at power-on with any parameters and any memory that is in
that form. -/
def Obligations.InvariantAtReset : Prop :=
  Inv State.reset ∧ ∀ (p : Config.Params) (m : Memory), Memory.wf m = true → Inv (State.powerOn p m)

/-- LOAD keeps the invariant, whose memory clause is the model's own canonical form (assumption 2). -/
def Obligations.LoadKeepsInvariant : Prop :=
  ∀ (s t : State) (bytes : List Byte) (a : Word), Inv s → s.load bytes a = .next t → Inv t

/-- Only the instructions of rule R16's table write the flags, and a shift by 0 does not. -/
def Obligations.OnlyListedInstructionsWriteFlags : Prop :=
  (∀ (i : Instr) (s t : State), exec i s = .next t → writesFlags i = false → t.flags = s.flags) ∧
  ∀ (rd rs rt : Reg) (s t : State), (s.reg rt).toNat % 16 = 0 →
    (exec (.shl rd rs rt) s = .next t ∨ exec (.shr rd rs rt) s = .next t) → t.flags = s.flags

/-- Only jumps, Return and MoveToSpecial PC write pc in execution, only the stack instructions and
MoveToSpecial SP write sp, and no instruction writes a general register but its destination (rules R12,
R14, R15, R64). -/
def Obligations.OnlyListedInstructionsWriteRegisters : Prop :=
  ∀ (i : Instr) (s t : State), exec i s = .next t →
    (writesPc i = false → t.pc = s.pc) ∧ (writesSp i = false → t.sp = s.sp) ∧
      ∀ q : Reg, destination i ≠ some q → t.reg q = s.reg q

/-- The only writers of memory are Store, StoreIndirect, Push and Call, and each writes at most the two
bytes at its address (rules R31, R39). -/
def Obligations.OnlyStoresWriteMemory : Prop :=
  ∀ (i : Instr) (s t : State), exec i s = .next t →
    (storeAddress s i = none → SameMemory s t) ∧
    ∀ a, storeAddress s i = some a → ∀ b, b ≠ a → b ≠ a + 1 → t.readByte b = s.readByte b

/-- No step writes the program interval (rule R21) or the parameters (rule R6; that State holds them is the
model's choice, assumption 1); `halted` is set by Halt alone and never cleared by a step (rule R20); and a
step writes the latch exactly when it raises a fault (rules R22, R162). -/
def Obligations.ControlStateWriters : Prop :=
  ∀ s t : State, step s = .next t →
    t.programStart = s.programStart ∧ t.programEnd = s.programEnd ∧ t.params = s.params ∧
    (s.halted = true → t.halted = true) ∧
    (s.halted = false → t.halted = true → ∃ w, Fetches s w ∧ decode s.params.enc w = .ok .halt) ∧
    (t.fault ≠ s.fault ↔ Raises s)

/-- In execution the parameters reach only LoadIndirect, StoreIndirect and OrImmediate (the decoder, which
reads `ENC`, is no part of a meaning): on every other instruction two
machines that differ in their parameters alone stay so (rule R6; that State holds them is the model's
choice, assumption 1). -/
def Obligations.ParametersReachThreeInstructions : Prop :=
  ∀ (i : Instr) (s t : State) (p : Config.Params), readsParams i = false → exec i s = .next t →
    exec i { s with params := p } = .next { t with params := p }

/-! ## Power-on and LOAD -/

/-- The values at power-on, for every memory contents (rule R191). -/
def Obligations.PowerOnValues : Prop :=
  ∀ (p : Config.Params) (m : Memory),
    (∀ q : Reg, (State.powerOn p m).reg q = 0) ∧ (State.powerOn p m).pc = 0 ∧ (State.powerOn p m).sp = 0 ∧
    (State.powerOn p m).programStart = 0 ∧ (State.powerOn p m).programEnd = 0 ∧
    (State.powerOn p m).flags = { z := false, n := false, c := false, v := false } ∧
    (State.powerOn p m).halted = false ∧ (State.powerOn p m).fault = none ∧
    ∀ a, Memory.read (State.powerOn p m).mem a = Memory.read m a

/-- A STEP at power-on, before any LOAD, faults and changes nothing else, and so does every later one
(rule R25, which marks this as derived). -/
def Obligations.StepBeforeLoadFaults : Prop :=
  ∀ (p : Config.Params) (m : Memory), ∃ t,
    stepTransaction (State.powerOn p m) = some (.fault (.programBoundsViolation 0 2 0 0), t) ∧
    t = { State.powerOn p m with fault := some (.programBoundsViolation 0 2 0 0) } ∧
    stepTransaction t = some (.fault (.programBoundsViolation 0 2 0 0), t)

/-- LOAD (rule R192): refused when it would end beyond 0xFFFF; else the interval, pc, sp, halted and the
latch are set, the bytes stand at consecutive addresses, and everything else stays. -/
def Obligations.LoadSetsUpTheRun : Prop :=
  (∀ (s : State) (bytes : List Byte) (a : Word), 0xFFFF < a.toNat + bytes.length →
    s.load bytes a = .refused .loadBeyondAddressSpace) ∧
  ∀ (s : State) (bytes : List Byte) (a : Word), a.toNat + bytes.length ≤ 0xFFFF →
    ∃ t, s.load bytes a = .next t ∧ t.programStart = a ∧
      t.programEnd.toNat = a.toNat + bytes.length ∧ t.pc = a ∧ t.sp = 0xFFFE ∧ t.halted = false ∧
      t.fault = none ∧ SameRegs s t ∧ t.flags = s.flags ∧ t.params = s.params ∧
      (∀ (k : Nat) (h : k < bytes.length), t.readByte (a + BitVec.ofNat 16 k) = bytes[k]) ∧
      (∀ b : Word, b.toNat < a.toNat ∨ a.toNat + bytes.length ≤ b.toNat → t.readByte b = s.readByte b)

/-- After a LOAD of a program image the first step runs the program's first instruction (rules R193,
R195), the image being written in the machine's own `ENC` (rule R6, assumption 5). -/
def Obligations.FirstStepAfterLoad : Prop :=
  ∀ (s : State) (i : Instr) (rest : List Word) (a : Word), s.params.enc.wellFormed = true →
    i.wellFormed = true → a.toNat + 2 * (rest.length + 1) ≤ 0xFFFF →
    ∃ t, s.load (programBytes (encode s.params.enc i :: rest)) a = .next t ∧
      step t = exec i { t with pc := a + 2 }
end

