-- ==== Sys2Proof/Laws/Decode.lean ====
section
/-! SUPPORT. The fields and the bytes of a word: what each extraction gives of a joined word, that
joining the extracted parts gives the word back, and that a legal `ENC` looks every number up again. -/

namespace Sys2Proof

/-! ## Bytes -/

@[simp] theorem lowByte_wordOfBytes (lo hi : Byte) : lowByte (wordOfBytes lo hi) = lo := by
  ext i h
  simp only [lowByte, wordOfBytes]
  interval_cases i <;> simp

@[simp] theorem highByte_wordOfBytes (lo hi : Byte) : highByte (wordOfBytes lo hi) = hi := by
  ext i h
  simp only [highByte, wordOfBytes]
  interval_cases i <;> simp

@[simp] theorem wordOfBytes_lowByte_highByte (w : Word) : wordOfBytes (lowByte w) (highByte w) = w := by
  ext i h
  simp only [lowByte, highByte, wordOfBytes]
  interval_cases i <;> simp

/-! ## R-type -/

section
variable (op : BitVec 4) (rd rs rt : Reg) (funct : BitVec 3)

@[simp] theorem joinFields_rType_opcode : (joinFields (.rType op rd rs rt funct)).extractLsb' 12 4 = op := by
  ext i h; simp only [joinFields]; interval_cases i <;> simp

@[simp] theorem joinFields_rType_rd : (joinFields (.rType op rd rs rt funct)).extractLsb' 9 3 = rd := by
  ext i h; simp only [joinFields]; interval_cases i <;> simp

@[simp] theorem joinFields_rType_rs : (joinFields (.rType op rd rs rt funct)).extractLsb' 6 3 = rs := by
  ext i h; simp only [joinFields]; interval_cases i <;> simp

@[simp] theorem joinFields_rType_rt : (joinFields (.rType op rd rs rt funct)).extractLsb' 3 3 = rt := by
  ext i h; simp only [joinFields]; interval_cases i <;> simp

@[simp] theorem joinFields_rType_funct : (joinFields (.rType op rd rs rt funct)).extractLsb' 0 3 = funct := by
  ext i h; simp only [joinFields]; interval_cases i <;> simp

end

theorem joinFields_rType_extract (w : Word) :
    joinFields (.rType (w.extractLsb' 12 4) (w.extractLsb' 9 3) (w.extractLsb' 6 3) (w.extractLsb' 3 3)
      (w.extractLsb' 0 3)) = w := by
  ext i h; simp only [joinFields]; interval_cases i <;> simp

/-! ## I-type -/

section
variable (op : BitVec 4) (rt : Reg) (imm : BitVec 9)

@[simp] theorem joinFields_iType_opcode : (joinFields (.iType op rt imm)).extractLsb' 12 4 = op := by
  ext i h; simp only [joinFields]; interval_cases i <;> simp

@[simp] theorem joinFields_iType_rt : (joinFields (.iType op rt imm)).extractLsb' 9 3 = rt := by
  ext i h; simp only [joinFields]; interval_cases i <;> simp

@[simp] theorem joinFields_iType_imm : (joinFields (.iType op rt imm)).extractLsb' 0 9 = imm := by
  ext i h; simp only [joinFields]; interval_cases i <;> simp

end

theorem joinFields_iType_extract (w : Word) :
    joinFields (.iType (w.extractLsb' 12 4) (w.extractLsb' 9 3) (w.extractLsb' 0 9)) = w := by
  ext i h; simp only [joinFields]; interval_cases i <;> simp

@[simp] theorem imm8Of_setWidth (imm8 : Byte) : imm8Of (imm8.setWidth 9) = imm8 := by
  ext i h; simp only [imm8Of]; interval_cases i <;> simp

/-! ## J-type -/

section
variable (op : BitVec 4) (offset : BitVec 12)

@[simp] theorem joinFields_jType_opcode : (joinFields (.jType op offset)).extractLsb' 12 4 = op := by
  ext i h; simp only [joinFields]; interval_cases i <;> simp

@[simp] theorem joinFields_jType_offset : (joinFields (.jType op offset)).extractLsb' 0 12 = offset := by
  ext i h; simp only [joinFields]; interval_cases i <;> simp

end

theorem joinFields_jType_extract (w : Word) :
    joinFields (.jType (w.extractLsb' 12 4) (w.extractLsb' 0 12)) = w := by
  ext i h; simp only [joinFields]; interval_cases i <;> simp

theorem offsetOf_eq_setWidth (delta : Word) : offsetOf delta = delta.setWidth 12 := by
  ext i h; simp only [offsetOf]; interval_cases i <;> simp

/-- The deltas that fit are the sign extensions of their offset field. -/
theorem sext12_offsetOf {delta : Word} (h : deltaFits delta = true) : sext12 (offsetOf delta) = delta := by
  rw [offsetOf_eq_setWidth]; exact beq_iff_eq.mp h

theorem deltaFits_sext12 (offset : BitVec 12) : deltaFits (sext12 offset) = true := by
  have : (sext12 offset).setWidth 12 = offset := by
    ext i h; simp only [sext12]; interval_cases i <;> simp [BitVec.getElem_signExtend]
  unfold deltaFits; rw [this]; exact beq_iff_eq.mpr rfl

/-! ## E-type -/

section
variable (sub : BitVec 4) (rs rt : Reg) (unused : BitVec 2)

@[simp] theorem joinFields_eType_opcode :
    (joinFields (.eType sub rs rt unused)).extractLsb' 12 4 = 0xF#4 := by
  ext i h; simp only [joinFields]; interval_cases i <;> simp

@[simp] theorem joinFields_eType_sub : (joinFields (.eType sub rs rt unused)).extractLsb' 8 4 = sub := by
  ext i h; simp only [joinFields]; interval_cases i <;> simp

@[simp] theorem joinFields_eType_rs : (joinFields (.eType sub rs rt unused)).extractLsb' 5 3 = rs := by
  ext i h; simp only [joinFields]; interval_cases i <;> simp

@[simp] theorem joinFields_eType_rt : (joinFields (.eType sub rs rt unused)).extractLsb' 2 3 = rt := by
  ext i h; simp only [joinFields]; interval_cases i <;> simp

@[simp] theorem joinFields_eType_unused :
    (joinFields (.eType sub rs rt unused)).extractLsb' 0 2 = unused := by
  ext i h; simp only [joinFields]; interval_cases i <;> simp

end

theorem joinFields_eType_extract {w : Word} (h : w.extractLsb' 12 4 = 0xF#4) :
    joinFields (.eType (w.extractLsb' 8 4) (w.extractLsb' 5 3) (w.extractLsb' 2 3) (w.extractLsb' 0 2)) = w := by
  have h0 : (0xF000#16 : Word) = (w.extractLsb' 12 4).setWidth 16 <<< 12 := by rw [h]; rfl
  simp only [joinFields, h0]
  ext i hi; interval_cases i <;> simp

/-! ## The bits that select the instruction -/

theorem joinFields_rType_fixed (op : BitVec 4) (rd rs rt : Reg) (funct : BitVec 3) :
    joinFields (.rType op rd rs rt funct) &&& 0xF007#16 = (op.setWidth 16 <<< 12) ||| funct.setWidth 16 := by
  ext i h; simp only [joinFields]; interval_cases i <;> simp

theorem joinFields_iType_fixed (op : BitVec 4) (rt : Reg) (imm : BitVec 9) :
    joinFields (.iType op rt imm) &&& 0xF000#16 = op.setWidth 16 <<< 12 := by
  ext i h; simp only [joinFields]; interval_cases i <;> simp

theorem joinFields_jType_fixed (op : BitVec 4) (offset : BitVec 12) :
    joinFields (.jType op offset) &&& 0xF000#16 = op.setWidth 16 <<< 12 := by
  ext i h; simp only [joinFields]; interval_cases i <;> simp

theorem joinFields_eType_fixed (sub : BitVec 4) (rs rt : Reg) (unused : BitVec 2) :
    joinFields (.eType sub rs rt unused) &&& 0xFF00#16 = 0xF000#16 ||| (sub.setWidth 16 <<< 8) := by
  ext i h; simp only [joinFields]; interval_cases i <;> simp

/-! ## The tables of `ENC` -/

theorem ROp.mem_all (o : ROp) : o ∈ ROp.all := by cases o <;> decide

theorem IOp.mem_all (o : IOp) : o ∈ IOp.all := by cases o <;> decide

theorem JOp.mem_all (o : JOp) : o ∈ JOp.all := by cases o <;> decide

theorem EOp.mem_all (o : EOp) : o ∈ EOp.all := by cases o <;> decide

theorem Special.mem_all (r : Special) : r ∈ Special.all := by cases r <;> decide

/-- Where no two members have one code, looking a code up gives the member that has it. -/
theorem find_code {α β : Type} [BEq β] [LawfulBEq β] (code : α → β) {l : List α} (h : (l.map code).Nodup)
    {a : α} (ha : a ∈ l) : l.find? (fun b => code b == code a) = some a := by
  induction l with
  | nil => cases ha
  | cons b l ih =>
    obtain ⟨hb, hl⟩ := List.nodup_cons.mp h
    rcases List.mem_cons.mp ha with rfl | ha
    · simp
    · have hne : code b ≠ code a := fun he => hb (he ▸ List.mem_map_of_mem ha)
      rw [List.find?_cons_of_neg (by simpa using hne), ih hl ha]

/-- What `Config.Enc.wellFormed` says, clause by clause. -/
structure Config.Enc.Legal (enc : Config.Enc) : Prop where
  rOpcode : ∀ o : ROp, (o.code enc).1 = 0x0 ∨ (o.code enc).1 = 0x1 ∨ (o.code enc).1 = 0xE
  iOpcode : ∀ o : IOp, 0x2 ≤ (o.code enc).toNat ∧ (o.code enc).toNat ≤ 0x8
  jOpcode : ∀ o : JOp, 0x9 ≤ (o.code enc).toNat ∧ (o.code enc).toNat ≤ 0xD
  selector : ∀ r : Special, (r.code enc).toNat ≤ 2
  rNodup : (ROp.all.map (ROp.code enc)).Nodup
  iNodup : (IOp.all.map (IOp.code enc)).Nodup
  jNodup : (JOp.all.map (JOp.code enc)).Nodup
  eNodup : (EOp.all.map (EOp.code enc)).Nodup
  selNodup : (Special.all.map (Special.code enc)).Nodup

theorem Config.Enc.legal {enc : Config.Enc} (h : enc.wellFormed = true) : enc.Legal := by
  simp only [Config.Enc.wellFormed, Bool.and_eq_true, Bool.or_eq_true, List.all_eq_true, beq_iff_eq,
    decide_eq_true_eq, or_assoc] at h
  obtain ⟨⟨⟨⟨⟨⟨⟨⟨hr, hi⟩, hj⟩, hs⟩, nr⟩, ni⟩, nj⟩, ne⟩, ns⟩ := h
  exact ⟨fun o => hr o o.mem_all, fun o => hi o o.mem_all, fun o => hj o o.mem_all,
    fun r => hs r r.mem_all, nr, ni, nj, ne, ns⟩

/-- The spec's assignment is one that the source allows. -/
theorem Config.Enc.spec_wellFormed : Config.Enc.spec.wellFormed = true := by decide

section
variable {enc : Config.Enc}

theorem findROp_code (h : enc.wellFormed = true) (o : ROp) :
    findROp enc (o.code enc).1 (o.code enc).2 = some o :=
  find_code (ROp.code enc) (Config.Enc.legal h).rNodup o.mem_all

theorem findIOp_code (h : enc.wellFormed = true) (o : IOp) : findIOp enc (o.code enc) = some o :=
  find_code (IOp.code enc) (Config.Enc.legal h).iNodup o.mem_all

theorem findJOp_code (h : enc.wellFormed = true) (o : JOp) : findJOp enc (o.code enc) = some o :=
  find_code (JOp.code enc) (Config.Enc.legal h).jNodup o.mem_all

theorem findEOp_code (h : enc.wellFormed = true) (o : EOp) : findEOp enc (o.code enc) = some o :=
  find_code (EOp.code enc) (Config.Enc.legal h).eNodup o.mem_all

theorem findSpecial_code (h : enc.wellFormed = true) (r : Special) : findSpecial enc (r.code enc) = some r :=
  find_code (Special.code enc) (Config.Enc.legal h).selNodup r.mem_all

theorem layoutOf_rOp (h : enc.wellFormed = true) (o : ROp) : layoutOf enc (o.code enc).1 = some .rType := by
  have hR : isROpcode enc (o.code enc).1 = true :=
    List.any_eq_true.mpr ⟨o, o.mem_all, beq_self_eq_true _⟩
  rcases (Config.Enc.legal h).rOpcode o with he | he | he <;> rw [he] at hR ⊢ <;>
    simpa [layoutOf] using hR

theorem layoutOf_iOp (h : enc.wellFormed = true) (o : IOp) : layoutOf enc (o.code enc) = some .iType :=
  if_pos ((Config.Enc.legal h).iOpcode o)

theorem layoutOf_jOp (h : enc.wellFormed = true) (o : JOp) : layoutOf enc (o.code enc) = some .jType := by
  have hj := (Config.Enc.legal h).jOpcode o
  rw [layoutOf, if_neg (by omega), if_pos hj]

end

/-! What a look-up gives has the number looked up, under any `ENC`. -/

theorem findROp_some {enc : Config.Enc} {opcode : BitVec 4} {funct : BitVec 3} {o : ROp}
    (h : findROp enc opcode funct = some o) : o.code enc = (opcode, funct) :=
  by
  simpa using List.find?_some h

theorem findIOp_some {enc : Config.Enc} {opcode : BitVec 4} {o : IOp}
    (h : findIOp enc opcode = some o) : o.code enc = opcode := by
  simpa using List.find?_some h

theorem findJOp_some {enc : Config.Enc} {opcode : BitVec 4} {o : JOp}
    (h : findJOp enc opcode = some o) : o.code enc = opcode := by
  simpa using List.find?_some h

theorem findEOp_some {enc : Config.Enc} {subcode : BitVec 4} {o : EOp}
    (h : findEOp enc subcode = some o) : o.code enc = subcode := by
  simpa using List.find?_some h

theorem findSpecial_some {enc : Config.Enc} {sel : BitVec 3} {r : Special}
    (h : findSpecial enc sel = some r) : r.code enc = sel := by
  simpa using List.find?_some h

/-- Everything a decode that gives an instruction has done (rule R68). -/
theorem decode_ok {enc : Config.Enc} {w : Word} {i : Instr} (h : decode enc w = .ok i) :
    ∃ f, splitWord enc w = .ok f ∧ decodeFields enc f = .ok i := by
  unfold decode at h
  split at h
  · next f hf => exact ⟨f, hf, h⟩
  · cases h

theorem layoutOf_eType (enc : Config.Enc) : layoutOf enc 0xF#4 = some .eType := rfl

end Sys2Proof
end

