-- ==== Sys2Proof/Laws/State.lean ====
section
/-! SUPPORT. One lemma per field per update of the state, each true by definition, so that no proof unfolds
a record update; what a register or a byte reads as after an update that does not concern it. -/

namespace Sys2Proof.Machine

/-! ## `setReg` -/

@[simp] theorem State.setReg_regs (s : State) (r : Reg) (v : Word) :
    (s.setReg r v).regs = writeRegs s.regs r v := rfl

@[simp] theorem State.setReg_pc (s : State) (r : Reg) (v : Word) :
    (s.setReg r v).pc = s.pc := rfl

@[simp] theorem State.setReg_sp (s : State) (r : Reg) (v : Word) :
    (s.setReg r v).sp = s.sp := rfl

@[simp] theorem State.setReg_flags (s : State) (r : Reg) (v : Word) :
    (s.setReg r v).flags = s.flags := rfl

@[simp] theorem State.setReg_halted (s : State) (r : Reg) (v : Word) :
    (s.setReg r v).halted = s.halted := rfl

@[simp] theorem State.setReg_programStart (s : State) (r : Reg) (v : Word) :
    (s.setReg r v).programStart = s.programStart := rfl

@[simp] theorem State.setReg_programEnd (s : State) (r : Reg) (v : Word) :
    (s.setReg r v).programEnd = s.programEnd := rfl

@[simp] theorem State.setReg_fault (s : State) (r : Reg) (v : Word) :
    (s.setReg r v).fault = s.fault := rfl

@[simp] theorem State.setReg_mem (s : State) (r : Reg) (v : Word) :
    (s.setReg r v).mem = s.mem := rfl

@[simp] theorem State.setReg_params (s : State) (r : Reg) (v : Word) :
    (s.setReg r v).params = s.params := rfl

@[simp] theorem State.setReg_readByte (s : State) (r : Reg) (v : Word) (x : Word) :
    (s.setReg r v).readByte x = s.readByte x := rfl

@[simp] theorem State.setReg_readWord (s : State) (r : Reg) (v : Word) (x : Word) :
    (s.setReg r v).readWord x = s.readWord x := rfl

/-! ## `setPc` -/

@[simp] theorem State.setPc_regs (s : State) (v : Word) :
    (s.setPc v).regs = s.regs := rfl

@[simp] theorem State.setPc_pc (s : State) (v : Word) :
    (s.setPc v).pc = v := rfl

@[simp] theorem State.setPc_sp (s : State) (v : Word) :
    (s.setPc v).sp = s.sp := rfl

@[simp] theorem State.setPc_flags (s : State) (v : Word) :
    (s.setPc v).flags = s.flags := rfl

@[simp] theorem State.setPc_halted (s : State) (v : Word) :
    (s.setPc v).halted = s.halted := rfl

@[simp] theorem State.setPc_programStart (s : State) (v : Word) :
    (s.setPc v).programStart = s.programStart := rfl

@[simp] theorem State.setPc_programEnd (s : State) (v : Word) :
    (s.setPc v).programEnd = s.programEnd := rfl

@[simp] theorem State.setPc_fault (s : State) (v : Word) :
    (s.setPc v).fault = s.fault := rfl

@[simp] theorem State.setPc_mem (s : State) (v : Word) :
    (s.setPc v).mem = s.mem := rfl

@[simp] theorem State.setPc_params (s : State) (v : Word) :
    (s.setPc v).params = s.params := rfl

@[simp] theorem State.setPc_reg (s : State) (v : Word) (q : Reg) :
    (s.setPc v).reg q = s.reg q := rfl

@[simp] theorem State.setPc_readByte (s : State) (v : Word) (x : Word) :
    (s.setPc v).readByte x = s.readByte x := rfl

@[simp] theorem State.setPc_readWord (s : State) (v : Word) (x : Word) :
    (s.setPc v).readWord x = s.readWord x := rfl

/-! ## `setSp` -/

@[simp] theorem State.setSp_regs (s : State) (v : Word) :
    (s.setSp v).regs = s.regs := rfl

@[simp] theorem State.setSp_pc (s : State) (v : Word) :
    (s.setSp v).pc = s.pc := rfl

@[simp] theorem State.setSp_sp (s : State) (v : Word) :
    (s.setSp v).sp = v := rfl

@[simp] theorem State.setSp_flags (s : State) (v : Word) :
    (s.setSp v).flags = s.flags := rfl

@[simp] theorem State.setSp_halted (s : State) (v : Word) :
    (s.setSp v).halted = s.halted := rfl

@[simp] theorem State.setSp_programStart (s : State) (v : Word) :
    (s.setSp v).programStart = s.programStart := rfl

@[simp] theorem State.setSp_programEnd (s : State) (v : Word) :
    (s.setSp v).programEnd = s.programEnd := rfl

@[simp] theorem State.setSp_fault (s : State) (v : Word) :
    (s.setSp v).fault = s.fault := rfl

@[simp] theorem State.setSp_mem (s : State) (v : Word) :
    (s.setSp v).mem = s.mem := rfl

@[simp] theorem State.setSp_params (s : State) (v : Word) :
    (s.setSp v).params = s.params := rfl

@[simp] theorem State.setSp_reg (s : State) (v : Word) (q : Reg) :
    (s.setSp v).reg q = s.reg q := rfl

@[simp] theorem State.setSp_readByte (s : State) (v : Word) (x : Word) :
    (s.setSp v).readByte x = s.readByte x := rfl

@[simp] theorem State.setSp_readWord (s : State) (v : Word) (x : Word) :
    (s.setSp v).readWord x = s.readWord x := rfl

/-! ## `setFlags` -/

@[simp] theorem State.setFlags_regs (s : State) (f : Flags) :
    (s.setFlags f).regs = s.regs := rfl

@[simp] theorem State.setFlags_pc (s : State) (f : Flags) :
    (s.setFlags f).pc = s.pc := rfl

@[simp] theorem State.setFlags_sp (s : State) (f : Flags) :
    (s.setFlags f).sp = s.sp := rfl

@[simp] theorem State.setFlags_flags (s : State) (f : Flags) :
    (s.setFlags f).flags = f := rfl

@[simp] theorem State.setFlags_halted (s : State) (f : Flags) :
    (s.setFlags f).halted = s.halted := rfl

@[simp] theorem State.setFlags_programStart (s : State) (f : Flags) :
    (s.setFlags f).programStart = s.programStart := rfl

@[simp] theorem State.setFlags_programEnd (s : State) (f : Flags) :
    (s.setFlags f).programEnd = s.programEnd := rfl

@[simp] theorem State.setFlags_fault (s : State) (f : Flags) :
    (s.setFlags f).fault = s.fault := rfl

@[simp] theorem State.setFlags_mem (s : State) (f : Flags) :
    (s.setFlags f).mem = s.mem := rfl

@[simp] theorem State.setFlags_params (s : State) (f : Flags) :
    (s.setFlags f).params = s.params := rfl

@[simp] theorem State.setFlags_reg (s : State) (f : Flags) (q : Reg) :
    (s.setFlags f).reg q = s.reg q := rfl

@[simp] theorem State.setFlags_readByte (s : State) (f : Flags) (x : Word) :
    (s.setFlags f).readByte x = s.readByte x := rfl

@[simp] theorem State.setFlags_readWord (s : State) (f : Flags) (x : Word) :
    (s.setFlags f).readWord x = s.readWord x := rfl

/-! ## `setHalted` -/

@[simp] theorem State.setHalted_regs (s : State) :
    (s.setHalted).regs = s.regs := rfl

@[simp] theorem State.setHalted_pc (s : State) :
    (s.setHalted).pc = s.pc := rfl

@[simp] theorem State.setHalted_sp (s : State) :
    (s.setHalted).sp = s.sp := rfl

@[simp] theorem State.setHalted_flags (s : State) :
    (s.setHalted).flags = s.flags := rfl

@[simp] theorem State.setHalted_halted (s : State) :
    (s.setHalted).halted = true := rfl

@[simp] theorem State.setHalted_programStart (s : State) :
    (s.setHalted).programStart = s.programStart := rfl

@[simp] theorem State.setHalted_programEnd (s : State) :
    (s.setHalted).programEnd = s.programEnd := rfl

@[simp] theorem State.setHalted_fault (s : State) :
    (s.setHalted).fault = s.fault := rfl

@[simp] theorem State.setHalted_mem (s : State) :
    (s.setHalted).mem = s.mem := rfl

@[simp] theorem State.setHalted_params (s : State) :
    (s.setHalted).params = s.params := rfl

@[simp] theorem State.setHalted_reg (s : State) (q : Reg) :
    (s.setHalted).reg q = s.reg q := rfl

@[simp] theorem State.setHalted_readByte (s : State) (x : Word) :
    (s.setHalted).readByte x = s.readByte x := rfl

@[simp] theorem State.setHalted_readWord (s : State) (x : Word) :
    (s.setHalted).readWord x = s.readWord x := rfl

/-! ## `latch` -/

@[simp] theorem State.latch_regs (s : State) (f : Fault) :
    (s.latch f).regs = s.regs := rfl

@[simp] theorem State.latch_pc (s : State) (f : Fault) :
    (s.latch f).pc = s.pc := rfl

@[simp] theorem State.latch_sp (s : State) (f : Fault) :
    (s.latch f).sp = s.sp := rfl

@[simp] theorem State.latch_flags (s : State) (f : Fault) :
    (s.latch f).flags = s.flags := rfl

@[simp] theorem State.latch_halted (s : State) (f : Fault) :
    (s.latch f).halted = s.halted := rfl

@[simp] theorem State.latch_programStart (s : State) (f : Fault) :
    (s.latch f).programStart = s.programStart := rfl

@[simp] theorem State.latch_programEnd (s : State) (f : Fault) :
    (s.latch f).programEnd = s.programEnd := rfl

@[simp] theorem State.latch_fault (s : State) (f : Fault) :
    (s.latch f).fault = some f := rfl

@[simp] theorem State.latch_mem (s : State) (f : Fault) :
    (s.latch f).mem = s.mem := rfl

@[simp] theorem State.latch_params (s : State) (f : Fault) :
    (s.latch f).params = s.params := rfl

@[simp] theorem State.latch_reg (s : State) (f : Fault) (q : Reg) :
    (s.latch f).reg q = s.reg q := rfl

@[simp] theorem State.latch_readByte (s : State) (f : Fault) (x : Word) :
    (s.latch f).readByte x = s.readByte x := rfl

@[simp] theorem State.latch_readWord (s : State) (f : Fault) (x : Word) :
    (s.latch f).readWord x = s.readWord x := rfl

/-! ## `writeByte` -/

@[simp] theorem State.writeByte_regs (s : State) (a : Word) (b : Byte) :
    (s.writeByte a b).regs = s.regs := rfl

@[simp] theorem State.writeByte_pc (s : State) (a : Word) (b : Byte) :
    (s.writeByte a b).pc = s.pc := rfl

@[simp] theorem State.writeByte_sp (s : State) (a : Word) (b : Byte) :
    (s.writeByte a b).sp = s.sp := rfl

@[simp] theorem State.writeByte_flags (s : State) (a : Word) (b : Byte) :
    (s.writeByte a b).flags = s.flags := rfl

@[simp] theorem State.writeByte_halted (s : State) (a : Word) (b : Byte) :
    (s.writeByte a b).halted = s.halted := rfl

@[simp] theorem State.writeByte_programStart (s : State) (a : Word) (b : Byte) :
    (s.writeByte a b).programStart = s.programStart := rfl

@[simp] theorem State.writeByte_programEnd (s : State) (a : Word) (b : Byte) :
    (s.writeByte a b).programEnd = s.programEnd := rfl

@[simp] theorem State.writeByte_fault (s : State) (a : Word) (b : Byte) :
    (s.writeByte a b).fault = s.fault := rfl

@[simp] theorem State.writeByte_mem (s : State) (a : Word) (b : Byte) :
    (s.writeByte a b).mem = Memory.write s.mem a.toNat b := rfl

@[simp] theorem State.writeByte_params (s : State) (a : Word) (b : Byte) :
    (s.writeByte a b).params = s.params := rfl

@[simp] theorem State.writeByte_reg (s : State) (a : Word) (b : Byte) (q : Reg) :
    (s.writeByte a b).reg q = s.reg q := rfl

/-! ## The special registers -/

@[simp] theorem State.special_pc (s : State) : s.special .pc = s.pc := rfl

@[simp] theorem State.special_sp (s : State) : s.special .sp = s.sp := rfl

@[simp] theorem State.special_flags (s : State) : s.special .flags = packFlags s.flags := rfl

@[simp] theorem State.setSpecial_pc (s : State) (v : Word) : s.setSpecial .pc v = s.setPc v := rfl

@[simp] theorem State.setSpecial_sp (s : State) (v : Word) : s.setSpecial .sp v = s.setSp v := rfl

@[simp] theorem State.setSpecial_flags (s : State) (v : Word) :
    s.setSpecial .flags v = s.setFlags (unpackFlags v) := rfl

@[simp] theorem State.get_general (s : State) (r : Reg) : s.get (.general r) = s.reg r := rfl

@[simp] theorem State.get_special (s : State) (r : Special) : s.get (.special r) = s.special r := rfl

@[simp] theorem State.set_general (s : State) (r : Reg) (v : Word) :
    s.set (.general r) v = s.setReg r v := rfl

@[simp] theorem State.set_special (s : State) (r : Special) (v : Word) :
    s.set (.special r) v = s.setSpecial r v := rfl

end Sys2Proof.Machine
end

