-- ==== Sys2Proof/Laws/Memory.lean ====
section
/-! SUPPORT. The laws of the memory: a read after a write, that a write leaves every other address alone,
and that every memory operation keeps the canonical form. -/

namespace Sys2Proof.Machine

/-! ## Reading after erasing, inserting and writing -/

theorem Memory.read_erase (m : Memory) (a x : Nat) :
    Memory.read (Memory.erase m a) x = if x = a then Memory.unlisted a else Memory.read m x := by
  induction m with
  | nil => simp [Memory.erase, Memory.read]; intro h; rw [h]
  | cons kb rest ih =>
    obtain ⟨k, b⟩ := kb
    simp only [Memory.erase]
    by_cases hk : k = a
    · simp only [hk, if_true, ih, Memory.read]
      by_cases hx : x = a
      · simp [hx]
      · simp [hx, Ne.symm hx]
    · simp only [hk, if_false, Memory.read, ih]
      by_cases hx : x = a
      · subst hx; simp [hk]
      · simp [hx]

theorem Memory.read_cell_append (a : Nat) (b : Byte) (rest : Memory) (x : Nat)
    (h : Memory.read rest a = Memory.unlisted a) :
    Memory.read (Memory.cell a b ++ rest) x = if x = a then b else Memory.read rest x := by
  unfold Memory.cell
  by_cases hb : b = Memory.unlisted a
  · simp only [hb, if_true, List.nil_append]
    by_cases hx : x = a
    · simp [hx, h]
    · simp [hx]
  · simp only [hb, if_false, List.cons_append, List.nil_append, Memory.read]
    by_cases hx : x = a
    · simp [hx]
    · simp [hx, Ne.symm hx]

theorem Memory.read_insert (m : Memory) (a : Nat) (b : Byte) (x : Nat)
    (h : ∀ kb ∈ m, kb.1 ≠ a) :
    Memory.read (Memory.insert m a (Memory.cell a b)) x = if x = a then b else Memory.read m x := by
  induction m with
  | nil =>
    have := Memory.read_cell_append a b [] x rfl
    simpa [Memory.insert] using this
  | cons kc rest ih =>
    obtain ⟨k, c⟩ := kc
    have hk : k ≠ a := h _ (List.mem_cons_self ..)
    have ih' := ih (fun kb hm => h kb (List.mem_cons_of_mem _ hm))
    simp only [Memory.insert]
    by_cases hlt : k < a
    · simp only [hlt, if_true, Memory.read, ih']
      by_cases hx : x = a
      · subst hx; simp [hk]
      · simp [hx]
    · simp only [hlt, if_false]
      refine Memory.read_cell_append a b _ x ?_
      have hrest : ∀ (l : Memory), (∀ kb ∈ l, kb.1 ≠ a) → Memory.read l a = Memory.unlisted a := by
        intro l hl
        induction l with
        | nil => rfl
        | cons p tl ihl =>
          have h1 := hl p (List.mem_cons_self ..)
          simp only [Memory.read, h1, if_false]
          exact ihl (fun kb hm => hl kb (List.mem_cons_of_mem _ hm))
      exact hrest _ h

theorem Memory.erase_ne (m : Memory) (a : Nat) : ∀ kb ∈ Memory.erase m a, kb.1 ≠ a := by
  induction m with
  | nil => simp [Memory.erase]
  | cons kc rest ih =>
    obtain ⟨k, c⟩ := kc
    simp only [Memory.erase]
    by_cases hk : k = a
    · simpa [hk] using ih
    · intro kb hm
      simp only [hk, if_false, List.mem_cons] at hm
      rcases hm with rfl | hm
      · exact hk
      · exact ih kb hm

/-- A read after a write: the written address gives the written byte, every other address what it gave. -/
theorem Memory.read_write (m : Memory) (a : Nat) (b : Byte) (x : Nat) :
    Memory.read (Memory.write m a b) x = if x = a then b else Memory.read m x := by
  unfold Memory.write
  rw [Memory.read_insert _ _ _ _ (Memory.erase_ne m a), Memory.read_erase]
  by_cases hx : x = a <;> simp [hx]

/-! ## The canonical form -/

theorem Memory.wfFrom_mono {m : Memory} {low low' : Nat} (h : Memory.wfFrom low m = true) (hl : low' ≤ low) :
    Memory.wfFrom low' m = true := by
  cases m with
  | nil => rfl
  | cons kb rest =>
    obtain ⟨k, b⟩ := kb
    simp only [Memory.wfFrom, Bool.and_eq_true, decide_eq_true_eq] at h ⊢
    exact ⟨⟨⟨by omega, h.1.1.2⟩, h.1.2⟩, h.2⟩

theorem Memory.wfFrom_erase {m : Memory} {low : Nat} (a : Nat) (h : Memory.wfFrom low m = true) :
    Memory.wfFrom low (Memory.erase m a) = true := by
  induction m generalizing low with
  | nil => rfl
  | cons kb rest ih =>
    obtain ⟨k, b⟩ := kb
    simp only [Memory.wfFrom, Bool.and_eq_true, decide_eq_true_eq] at h
    simp only [Memory.erase]
    by_cases hk : k = a
    · simp only [hk, if_true]
      exact Memory.wfFrom_mono (ih h.2) (by omega)
    · simp only [hk, if_false, Memory.wfFrom, Bool.and_eq_true, decide_eq_true_eq]
      exact ⟨h.1, ih h.2⟩

theorem Memory.wfFrom_cell_append {rest : Memory} {low a : Nat} (b : Byte) (hl : low ≤ a) (ha : a < 0x10000)
    (h : Memory.wfFrom (a + 1) rest = true) : Memory.wfFrom low (Memory.cell a b ++ rest) = true := by
  unfold Memory.cell
  by_cases hb : b = Memory.unlisted a
  · simpa [hb] using Memory.wfFrom_mono h (by omega)
  · simp [hb, Memory.wfFrom, hl, ha, h]

theorem Memory.wfFrom_insert {m : Memory} {low a : Nat} (b : Byte) (hl : low ≤ a) (ha : a < 0x10000)
    (hne : ∀ kb ∈ m, kb.1 ≠ a) (h : Memory.wfFrom low m = true) :
    Memory.wfFrom low (Memory.insert m a (Memory.cell a b)) = true := by
  induction m generalizing low with
  | nil => simpa [Memory.insert] using Memory.wfFrom_cell_append (rest := []) b hl ha rfl
  | cons kc rest ih =>
    obtain ⟨k, c⟩ := kc
    have hk : k ≠ a := hne _ (List.mem_cons_self ..)
    simp only [Memory.wfFrom, Bool.and_eq_true, decide_eq_true_eq] at h
    simp only [Memory.insert]
    by_cases hlt : k < a
    · simp only [hlt, if_true, Memory.wfFrom, Bool.and_eq_true, decide_eq_true_eq]
      exact ⟨h.1, ih (by omega) (fun kb hm => hne kb (List.mem_cons_of_mem _ hm)) h.2⟩
    · simp only [hlt, if_false]
      refine Memory.wfFrom_cell_append b hl ha ?_
      simp only [Memory.wfFrom, Bool.and_eq_true, decide_eq_true_eq]
      exact ⟨⟨⟨by omega, h.1.1.2⟩, h.1.2⟩, h.2⟩

/-- Every write inside the address space keeps the canonical form. -/
theorem Memory.wf_write {m : Memory} {a : Nat} (b : Byte) (ha : a < 0x10000) (h : Memory.wf m = true) :
    Memory.wf (Memory.write m a b) = true :=
  Memory.wfFrom_insert b (Nat.zero_le a) ha (Memory.erase_ne m a) (Memory.wfFrom_erase a h)

/-! ## Bytes of the state -/

@[simp] theorem State.readByte_writeByte (s : State) (a : Word) (b : Byte) (x : Word) :
    (s.writeByte a b).readByte x = if x = a then b else s.readByte x := by
  simp only [State.readByte, State.writeByte, Memory.read_write, BitVec.toNat_inj]

theorem State.writeByte_wf {s : State} (a : Word) (b : Byte) (h : Memory.wf s.mem = true) :
    Memory.wf (s.writeByte a b).mem = true :=
  Memory.wf_write b a.isLt h

/-- The memory of the machine at reset has the canonical form. -/
theorem reset_mem_wf : Memory.wf State.reset.mem = true := rfl

end Sys2Proof.Machine
end

