-- ==== Sys2Proof/Laws/Ops.lean ====
section
/-! SUPPORT. For each shared operation one lemma that says everything it can do, so that proofs cite it and
do not unfold it. -/

namespace Sys2Proof.Machine

/-! ## Registers -/

@[simp] theorem State.reg_zero (s : State) : s.reg 0#3 = 0#16 := rfl

theorem readRegs_writeRegs (regs : Vector Word 7) (r q : Reg) (v : Word) :
    readRegs (writeRegs regs r v) q = if q = r ∧ q ≠ 0#3 then v else readRegs regs q := by
  unfold readRegs writeRegs
  by_cases hq : q = 0#3
  · simp [hq]
  · have hq1 : q.toNat ≠ 0 := fun h => hq (BitVec.eq_of_toNat_eq (by simpa using h))
    by_cases hr : r = 0#3
    · have hqr : q ≠ r := fun h => hq (h.trans hr)
      rw [if_neg hq, if_pos hr]
      simp [hq, hqr]
    · have hr1 : r.toNat ≠ 0 := fun h => hr (BitVec.eq_of_toNat_eq (by simpa using h))
      rw [if_neg hq, if_neg hr]
      by_cases hqr : q = r
      · subst hqr; simp [hq]
      · have hne : r.toNat - 1 ≠ q.toNat - 1 := fun h => hqr (BitVec.eq_of_toNat_eq (by omega))
        rw [Vector.getElem_set_ne _ _ hne]
        simp [hq, hqr]

/-- A register read after a register write: R0 still reads 0, the written register gives the value,
every other what it gave (rules R11, R12). -/
@[simp] theorem State.reg_setReg (s : State) (r : Reg) (v : Word) (q : Reg) :
    (s.setReg r v).reg q = if q = r ∧ q ≠ 0#3 then v else s.reg q :=
  readRegs_writeRegs s.regs r q v

theorem State.setReg_zero (s : State) (v : Word) : s.setReg 0#3 v = s := by
  cases s; rfl

/-! ## Result write-back and jumps -/

/-- Everything a result's write-back does. -/
theorem State.writeResult_spec (s : State) (rd : Reg) (r : Word × Flags) :
    RegWritten rd r.1 s (s.writeResult rd r) ∧ (s.writeResult rd r).flags = r.2 ∧
      (s.writeResult rd r).pc = s.pc ∧ (s.writeResult rd r).sp = s.sp ∧
      SameMemory s (s.writeResult rd r) ∧ SameControl s (s.writeResult rd r) :=
  ⟨fun q => by simp [State.writeResult], rfl, rfl, rfl, fun _ => rfl, rfl, rfl, rfl, rfl, rfl⟩

/-- Everything a register write does. -/
theorem State.setReg_spec (s : State) (rd : Reg) (v : Word) :
    RegWritten rd v s (s.setReg rd v) ∧ (s.setReg rd v).flags = s.flags ∧
      (s.setReg rd v).pc = s.pc ∧ (s.setReg rd v).sp = s.sp ∧
      SameMemory s (s.setReg rd v) ∧ SameControl s (s.setReg rd v) :=
  ⟨fun q => by simp, rfl, rfl, rfl, fun _ => rfl, rfl, rfl, rfl, rfl, rfl⟩

theorem State.jumpIf_true (s : State) (d : Word) : s.jumpIf true d = s.setPc (s.pc + d) := rfl

theorem State.jumpIf_false (s : State) (d : Word) : s.jumpIf false d = s := rfl

/-! ## Words of memory -/

/-- A word read below 0xFFFF completes (rule R35). -/
theorem State.readWord_ok (s : State) {a : Word} (h : a ≠ 0xFFFF#16) :
    s.readWord a = .ok (wordOfBytes (s.readByte a) (s.readByte (a + 1))) := by
  have : ¬ 0xFFFF ≤ a.toNat := fun hle => h (BitVec.eq_of_toNat_eq (by have := a.isLt; simp; omega))
  simp [State.readWord, this]

/-- A word read at 0xFFFF is refused (rule R35). -/
theorem State.readWord_top (s : State) : s.readWord 0xFFFF#16 = .error (.memoryOutOfBounds 0xFFFF#16) := rfl

/-- A word write below 0xFFFF completes (rule R36). -/
theorem State.writeWord_ok (s : State) {a : Word} (v : Word) (h : a ≠ 0xFFFF#16) :
    s.writeWord a v = .ok ((s.writeByte a (lowByte v)).writeByte (a + 1) (highByte v)) := by
  have : ¬ 0xFFFF ≤ a.toNat := fun hle => h (BitVec.eq_of_toNat_eq (by have := a.isLt; simp; omega))
  simp [State.writeWord, this]

/-- A word write at 0xFFFF is refused (rule R36). -/
theorem State.writeWord_top (s : State) (v : Word) :
    s.writeWord 0xFFFF#16 v = .error (.memoryOutOfBounds 0xFFFF#16) := rfl

/-- What a completed word write leaves (rule R36): the two bytes, and nothing else. -/
theorem State.writeWord_spec {s t : State} {a v : Word} (h : s.writeWord a v = .ok t) :
    a ≠ 0xFFFF#16 ∧ WordStored a v s t ∧ t = { s with mem := t.mem } ∧
      (Memory.wf s.mem = true → Memory.wf t.mem = true) := by
  have ha : a ≠ 0xFFFF#16 := by
    intro ha; rw [ha, State.writeWord_top] at h; cases h
  rw [State.writeWord_ok s v ha] at h
  cases h
  refine ⟨ha, ?_, rfl, fun hw => State.writeByte_wf _ _ (State.writeByte_wf _ _ hw)⟩
  intro b
  simp only [State.readByte_writeByte, lowByte, highByte]
  by_cases h1 : b = a
  · subst h1; simp
  · simp [h1]

/-! ## The stack -/

/-- Push refused: `sp` is 0 or 1 (rule R94). -/
theorem State.pushWord_overflow (s : State) (v : Word) (h : s.sp.toNat < 2) :
    s.pushWord v = .error .stackOverflow := by
  simp [State.pushWord, h]

theorem sub_two_ne_top {sp : Word} (h : 2 ≤ sp.toNat) : sp - 2 ≠ 0xFFFF#16 := by
  intro he
  have := congrArg BitVec.toNat he
  have hlt := sp.isLt
  simp [BitVec.toNat_sub] at this
  omega

/-- Push completed (rule R94): its word write cannot fail. -/
theorem State.pushWord_ok (s : State) (v : Word) (h : 2 ≤ s.sp.toNat) :
    s.pushWord v = (s.setSp (s.sp - 2)).writeWord (s.sp - 2) v := by
  simp [State.pushWord, Nat.not_lt.mpr h]

/-- What a completed push leaves (rule R94). -/
theorem State.pushWord_spec {s t : State} {v : Word} (h : s.pushWord v = .ok t) :
    2 ≤ s.sp.toNat ∧ WordStored (s.sp - 2) v s t ∧ t = { s with sp := s.sp - 2, mem := t.mem } ∧
      (Memory.wf s.mem = true → Memory.wf t.mem = true) := by
  by_cases hlt : s.sp.toNat < 2
  · rw [State.pushWord_overflow s v hlt] at h; cases h
  · rw [State.pushWord_ok s v (by omega)] at h
    obtain ⟨-, h2, h3, h4⟩ := State.writeWord_spec h
    exact ⟨by omega, h2, h3, h4⟩

/-- Push answers a state exactly when `sp` is at least 2 (rule R94). -/
theorem State.pushWord_completes (s : State) (v : Word) (h : 2 ≤ s.sp.toNat) :
    ∃ t, s.pushWord v = .ok t := by
  rw [State.pushWord_ok s v h, State.writeWord_ok _ _ (sub_two_ne_top h)]
  exact ⟨_, rfl⟩

/-- Pop refused: `sp` is 0xFFFF (rule R95). -/
theorem State.popInto_overflow (s : State) (dst : LReg) (h : s.sp = 0xFFFF#16) :
    s.popInto dst = .error .stackOverflow := by
  simp [State.popInto, h]

/-- Pop completed (rule R95): its word read cannot fail. -/
theorem State.popInto_ok (s : State) (dst : LReg) (h : s.sp ≠ 0xFFFF#16) :
    s.popInto dst =
      .ok ((s.setSp (s.sp + 2)).set dst (wordOfBytes (s.readByte s.sp) (s.readByte (s.sp + 1)))) := by
  have hlt : ¬ 0xFFFE < s.sp.toNat := fun hle =>
    h (BitVec.eq_of_toNat_eq (by have := s.sp.isLt; simp; omega))
  simp only [State.popInto, hlt, if_false, State.readWord_ok s h]

/-! ## Taking a fault -/

/-- Fault entry latches the fault and changes nothing else (rule R170). -/
theorem raise_spec (f : Fault) (s : State) : raise f s = .next { s with fault := some f } := rfl

@[simp] theorem finish_ok (s t : State) : finish s (.ok t) = .next t := rfl

@[simp] theorem finish_error (s : State) (f : Fault) : finish s (.error f) = raise f s := rfl

/-! ## LOAD -/

/-- Writing a list of bytes changes memory only. -/
theorem State.writeBytes_frame (bytes : List Byte) (s : State) (a : Word) :
    s.writeBytes a bytes = { s with mem := (s.writeBytes a bytes).mem } := by
  induction bytes generalizing s a with
  | nil => rfl
  | cons b rest ih => rw [State.writeBytes, ih]; rfl

theorem State.writeBytes_wf (bytes : List Byte) (s : State) (a : Word) (h : Memory.wf s.mem = true) :
    Memory.wf (s.writeBytes a bytes).mem = true := by
  induction bytes generalizing s a with
  | nil => exact h
  | cons b rest ih => exact ih _ _ (State.writeByte_wf _ _ h)

/-- What writing a list of bytes that fits below 0x10000 leaves at each address. -/
theorem State.writeBytes_read (bytes : List Byte) (s : State) (a : Word)
    (hfit : a.toNat + bytes.length ≤ 0xFFFF) (x : Word) :
    (s.writeBytes a bytes).readByte x =
      if a.toNat ≤ x.toNat then (bytes[x.toNat - a.toNat]?).getD (s.readByte x) else s.readByte x := by
  induction bytes generalizing s a with
  | nil => simp [State.writeBytes]
  | cons b rest ih =>
    simp only [List.length_cons] at hfit
    have ha : (a + 1).toNat = a.toNat + 1 := by simp [BitVec.toNat_add]; omega
    rw [State.writeBytes, ih _ _ (by omega), ha, State.readByte_writeByte]
    by_cases hx : x = a
    · subst hx; simp
    · have hx' : x.toNat ≠ a.toNat := fun h => hx (BitVec.eq_of_toNat_eq h)
      simp only [hx, if_false]
      by_cases hle : a.toNat + 1 ≤ x.toNat
      · have h1 : a.toNat ≤ x.toNat := by omega
        have h2 : x.toNat - a.toNat = (x.toNat - (a.toNat + 1)) + 1 := by omega
        rw [if_pos hle, if_pos h1, h2, List.getElem?_cons_succ]
      · have h1 : ¬ a.toNat ≤ x.toNat := by omega
        rw [if_neg hle, if_neg h1]

/-- A LOAD that would end beyond 0xFFFF is refused (rule R192). -/
theorem State.load_refused (s : State) (bytes : List Byte) (a : Word)
    (h : 0xFFFF < a.toNat + bytes.length) : s.load bytes a = .refused .loadBeyondAddressSpace := by
  simp [State.load, h]

/-- Every other LOAD completes (rule R192). -/
theorem State.load_ok (s : State) (bytes : List Byte) (a : Word) (h : a.toNat + bytes.length ≤ 0xFFFF) :
    s.load bytes a =
      .next (State.writeBytes
        { s with programStart := a, programEnd := a + BitVec.ofNat 16 bytes.length, pc := a, sp := 0xFFFE,
                 halted := false, fault := none } a bytes) := by
  simp [State.load, Nat.not_lt.mpr h]

end Sys2Proof.Machine
end

