-- ==== Sys2Proof/Laws/Exec.lean ====
section
/-! SUPPORT. What an instruction can do to the latch and the control state, said once for all 31. -/

namespace Sys2Proof.Machine

/-- A literal address is at most 0x00FF (rule R130). -/
theorem literalAddress_ne_top (imm8 : Byte) : literalAddress imm8 ≠ 0xFFFF#16 := by
  intro h
  have h' := congrArg BitVec.toNat h
  have := imm8.isLt
  simp [literalAddress, zext8] at h'
  omega

/-- Only `contents` can give the address 0xFFFF (rules R119, R120). -/
theorem indirectAddress_eq_top {s : State} {rs : Reg} :
    indirectAddress s rs = 0xFFFF#16 ↔ s.params.eaIndirect = .contents ∧ s.reg rs = 0xFFFF#16 := by
  unfold indirectAddress
  cases s.params.eaIndirect with
  | contents => simp
  | regnum =>
    have := rs.isLt
    simp only [reduceCtorEq, false_and, iff_false]
    intro h
    have h' := congrArg BitVec.toNat h
    simp at h'
    omega

/-- The control state and the canonical form of memory after an instruction that raised nothing. -/
def ControlKept (i : Instr) (s t : State) : Prop :=
  t.fault = s.fault ∧ t.programStart = s.programStart ∧ t.programEnd = s.programEnd ∧
    t.params = s.params ∧ (t.halted = s.halted ∨ (i = .halt ∧ t = s.setHalted)) ∧
    (Memory.wf s.mem = true → Memory.wf t.mem = true)

theorem ControlKept.of_frame {i : Instr} {s t : State} (h : SameControl s t) (hm : t.mem = s.mem) :
    ControlKept i s t :=
  ⟨h.2.2.2.1, h.2.1, h.2.2.1, h.2.2.2.2, .inl h.1, fun hw => by rw [hm]; exact hw⟩

/-- Everything an instruction that answers a next state can have done to the latch: nothing, or its own
handler's fault is latched and nothing else changed (rule R162). -/
theorem exec_next_cases {i : Instr} {s t : State} (h : exec i s = .next t) :
    ControlKept i s t ∨
    (i = .sysall ∧ t = s.latch .notImplemented) ∨
    (t = s.latch (.memoryOutOfBounds 0xFFFF#16) ∧ s.params.eaIndirect = .contents ∧
      ∃ rd rs, s.reg rs = 0xFFFF#16 ∧ (i = .ldr rd rs ∨ i = .str rd rs)) ∨
    (t = s.latch .stackOverflow ∧
      ((s.sp.toNat < 2 ∧ ((∃ rs, i = .push rs) ∨ ∃ d, i = .call d)) ∨
        (s.sp = 0xFFFF#16 ∧ ((∃ rd, i = .pop rd) ∨ i = .ret)))) := by
  have stored : ∀ {u : State} {a v : Word}, s.writeWord a v = .ok u → u = t → ControlKept i s t := by
    rintro u a v hu rfl
    obtain ⟨-, -, h3, h4⟩ := State.writeWord_spec hu
    refine ⟨?_, ?_, ?_, ?_, .inl ?_, h4⟩ <;> rw [h3]
  have pushed : ∀ {u : State} {v : Word}, s.pushWord v = .ok u → ∀ p, u.setPc p = t ∨ u = t →
      ControlKept i s t := by
    rintro u v hu p hut
    obtain ⟨-, -, h3, h4⟩ := State.pushWord_spec hu
    rcases hut with rfl | rfl <;> refine ⟨?_, ?_, ?_, ?_, .inl ?_, h4⟩ <;> (rw [h3]; try rfl)
  cases i
  case ldr rd rs =>
    by_cases ha : indirectAddress s rs = 0xFFFF#16
    · simp only [exec, execLdr, ha, State.readWord_top] at h
      cases h
      obtain ⟨h1, h2⟩ := indirectAddress_eq_top.mp ha
      exact .inr (.inr (.inl ⟨rfl, h1, rd, rs, h2, .inl rfl⟩))
    · simp only [exec, execLdr, State.readWord_ok s ha] at h
      cases h
      exact .inl (.of_frame (State.setReg_spec ..).2.2.2.2.2 rfl)
  case str rd rs =>
    by_cases ha : indirectAddress s rs = 0xFFFF#16
    · simp only [exec, execStr, ha, State.writeWord_top] at h
      cases h
      obtain ⟨h1, h2⟩ := indirectAddress_eq_top.mp ha
      exact .inr (.inr (.inl ⟨rfl, h1, rd, rs, h2, .inr rfl⟩))
    · have hw := State.writeWord_ok s (s.reg rd) ha
      simp only [exec, execStr, hw] at h
      cases h
      exact .inl (stored hw rfl)
  case ld rt imm8 =>
    simp only [exec, execLd, State.readWord_ok s (literalAddress_ne_top imm8)] at h
    cases h
    exact .inl (.of_frame (State.setReg_spec ..).2.2.2.2.2 rfl)
  case st rt imm8 =>
    have hw := State.writeWord_ok s (s.reg rt) (literalAddress_ne_top imm8)
    simp only [exec, execSt, hw] at h
    cases h
    exact .inl (stored hw rfl)
  case push rs =>
    by_cases hs : s.sp.toNat < 2
    · simp only [exec, execPush, State.pushWord_overflow _ _ hs] at h
      cases h
      exact .inr (.inr (.inr ⟨rfl, .inl ⟨hs, .inl ⟨rs, rfl⟩⟩⟩))
    · obtain ⟨u, hu⟩ := State.pushWord_completes s (s.reg rs) (by omega)
      simp only [exec, execPush, hu] at h
      cases h
      exact .inl (pushed hu 0 (.inr rfl))
  case call d =>
    by_cases hs : s.sp.toNat < 2
    · simp only [exec, execCall, State.pushWord_overflow _ _ hs] at h
      cases h
      exact .inr (.inr (.inr ⟨rfl, .inl ⟨hs, .inr ⟨d, rfl⟩⟩⟩))
    · obtain ⟨u, hu⟩ := State.pushWord_completes s s.pc (by omega)
      simp only [exec, execCall, hu] at h
      cases h
      exact .inl (pushed hu _ (.inl rfl))
  case pop rd =>
    by_cases hs : s.sp = 0xFFFF#16
    · simp only [exec, execPop, State.popInto_overflow _ _ hs] at h
      cases h
      exact .inr (.inr (.inr ⟨rfl, .inr ⟨hs, .inl ⟨rd, rfl⟩⟩⟩))
    · simp only [exec, execPop, State.popInto_ok _ _ hs] at h
      cases h
      exact .inl (.of_frame ⟨rfl, rfl, rfl, rfl, rfl⟩ rfl)
  case ret =>
    by_cases hs : s.sp = 0xFFFF#16
    · simp only [exec, execRet, State.popInto_overflow _ _ hs] at h
      cases h
      exact .inr (.inr (.inr ⟨rfl, .inr ⟨hs, .inr rfl⟩⟩))
    · simp only [exec, execRet, State.popInto_ok _ _ hs] at h
      cases h
      exact .inl (.of_frame ⟨rfl, rfl, rfl, rfl, rfl⟩ rfl)
  case jz d => cases h; exact .inl (by cases hz : s.flags.z <;> exact .of_frame ⟨rfl, rfl, rfl, rfl, rfl⟩ rfl)
  case jnz d => cases h; exact .inl (by cases hz : s.flags.z <;> exact .of_frame ⟨rfl, rfl, rfl, rfl, rfl⟩ rfl)
  case jgt d =>
    cases h
    exact .inl (by cases hz : greaterThan s.flags <;> exact .of_frame ⟨rfl, rfl, rfl, rfl, rfl⟩ rfl)
  case mts sel rt => cases h; exact .inl (by cases sel <;> exact .of_frame ⟨rfl, rfl, rfl, rfl, rfl⟩ rfl)
  case sysall => cases h; exact .inr (.inl ⟨rfl, rfl⟩)
  case halt => cases h; exact .inl ⟨rfl, rfl, rfl, rfl, .inr ⟨rfl, rfl⟩, id⟩
  all_goals cases h; exact .inl (.of_frame ⟨rfl, rfl, rfl, rfl, rfl⟩ rfl)

end Sys2Proof.Machine
end

