-- ==== Sys2Proof/Laws/PerInstr.lean ====
section
/-! SUPPORT. For every instruction: its encoding matches its row of `spec/opcode_table.json`. The masks and
the matched values are copied from that table, not from `Config.Enc.spec`. -/

namespace Sys2Proof.Laws.EncodesRow

/-- Mask and matched value of an instruction's row in `spec/opcode_table.json`. -/
def row : Instr → Word × Word
  | .add _ _ _ => (0xF007, 0x0000)
  | .sub _ _ _ => (0xF007, 0x0001)
  | .and _ _ _ => (0xF007, 0x0002)
  | .or _ _ _ => (0xF007, 0x0003)
  | .xor _ _ _ => (0xF007, 0x0004)
  | .not _ _ => (0xF007, 0x0005)
  | .shl _ _ _ => (0xF007, 0x0006)
  | .shr _ _ _ => (0xF007, 0x0007)
  | .ldr _ _ => (0xF007, 0x1000)
  | .str _ _ => (0xF007, 0x1001)
  | .cmp _ _ => (0xF007, 0x1002)
  | .ret => (0xF007, 0x1003)
  | .push _ => (0xF007, 0x1004)
  | .pop _ => (0xF007, 0x1005)
  | .ld _ _ => (0xF000, 0x2000)
  | .st _ _ => (0xF000, 0x3000)
  | .addi _ _ => (0xF000, 0x4000)
  | .andi _ _ => (0xF000, 0x5000)
  | .ori _ _ => (0xF000, 0x6000)
  | .lui _ _ => (0xF000, 0x7000)
  | .cmpi _ _ => (0xF000, 0x8000)
  | .call _ => (0xF000, 0x9000)
  | .jmp _ => (0xF000, 0xA000)
  | .jz _ => (0xF000, 0xB000)
  | .jnz _ => (0xF000, 0xC000)
  | .jgt _ => (0xF000, 0xD000)
  | .nop => (0xFF00, 0xF000)
  | .mfs _ _ => (0xFF00, 0xF100)
  | .mts _ _ => (0xFF00, 0xF200)
  | .sysall => (0xFF00, 0xFE00)
  | .halt => (0xFF00, 0xFF00)

/-- The fixed bits of the instruction's row stand in its encoding under the spec's assignment. -/
def Statement (i : Instr) : Prop := encode .spec i &&& (row i).1 = (row i).2

theorem add (rd : Reg) (rs : Reg) (rt : Reg) : Statement (.add rd rs rt) :=
  (joinFields_rType_fixed ..).trans rfl

theorem sub (rd : Reg) (rs : Reg) (rt : Reg) : Statement (.sub rd rs rt) :=
  (joinFields_rType_fixed ..).trans rfl

theorem and (rd : Reg) (rs : Reg) (rt : Reg) : Statement (.and rd rs rt) :=
  (joinFields_rType_fixed ..).trans rfl

theorem or (rd : Reg) (rs : Reg) (rt : Reg) : Statement (.or rd rs rt) :=
  (joinFields_rType_fixed ..).trans rfl

theorem xor (rd : Reg) (rs : Reg) (rt : Reg) : Statement (.xor rd rs rt) :=
  (joinFields_rType_fixed ..).trans rfl

theorem not (rd : Reg) (rs : Reg) : Statement (.not rd rs) :=
  (joinFields_rType_fixed ..).trans rfl

theorem shl (rd : Reg) (rs : Reg) (rt : Reg) : Statement (.shl rd rs rt) :=
  (joinFields_rType_fixed ..).trans rfl

theorem shr (rd : Reg) (rs : Reg) (rt : Reg) : Statement (.shr rd rs rt) :=
  (joinFields_rType_fixed ..).trans rfl

theorem ldr (rd : Reg) (rs : Reg) : Statement (.ldr rd rs) :=
  (joinFields_rType_fixed ..).trans rfl

theorem str (rd : Reg) (rs : Reg) : Statement (.str rd rs) :=
  (joinFields_rType_fixed ..).trans rfl

theorem cmp (rs : Reg) (rt : Reg) : Statement (.cmp rs rt) :=
  (joinFields_rType_fixed ..).trans rfl

theorem ret : Statement .ret :=
  (joinFields_rType_fixed ..).trans rfl

theorem push (rs : Reg) : Statement (.push rs) :=
  (joinFields_rType_fixed ..).trans rfl

theorem pop (rd : Reg) : Statement (.pop rd) :=
  (joinFields_rType_fixed ..).trans rfl

theorem ld (rt : Reg) (imm8 : Byte) : Statement (.ld rt imm8) :=
  (joinFields_iType_fixed ..).trans rfl

theorem st (rt : Reg) (imm8 : Byte) : Statement (.st rt imm8) :=
  (joinFields_iType_fixed ..).trans rfl

theorem addi (rt : Reg) (imm8 : Byte) : Statement (.addi rt imm8) :=
  (joinFields_iType_fixed ..).trans rfl

theorem andi (rt : Reg) (imm8 : Byte) : Statement (.andi rt imm8) :=
  (joinFields_iType_fixed ..).trans rfl

theorem ori (rt : Reg) (imm8 : Byte) : Statement (.ori rt imm8) :=
  (joinFields_iType_fixed ..).trans rfl

theorem lui (rt : Reg) (imm8 : Byte) : Statement (.lui rt imm8) :=
  (joinFields_iType_fixed ..).trans rfl

theorem cmpi (rt : Reg) (imm8 : Byte) : Statement (.cmpi rt imm8) :=
  (joinFields_iType_fixed ..).trans rfl

theorem call (delta : Word) : Statement (.call delta) :=
  (joinFields_jType_fixed ..).trans rfl

theorem jmp (delta : Word) : Statement (.jmp delta) :=
  (joinFields_jType_fixed ..).trans rfl

theorem jz (delta : Word) : Statement (.jz delta) :=
  (joinFields_jType_fixed ..).trans rfl

theorem jnz (delta : Word) : Statement (.jnz delta) :=
  (joinFields_jType_fixed ..).trans rfl

theorem jgt (delta : Word) : Statement (.jgt delta) :=
  (joinFields_jType_fixed ..).trans rfl

theorem nop : Statement .nop :=
  (joinFields_eType_fixed ..).trans rfl

theorem mfs (rt : Reg) (sel : Special) : Statement (.mfs rt sel) :=
  (joinFields_eType_fixed ..).trans rfl

theorem mts (sel : Special) (rt : Reg) : Statement (.mts sel rt) :=
  (joinFields_eType_fixed ..).trans rfl

theorem sysall : Statement .sysall :=
  (joinFields_eType_fixed ..).trans rfl

theorem halt : Statement .halt :=
  (joinFields_eType_fixed ..).trans rfl

end Sys2Proof.Laws.EncodesRow
end

