-- ==== Sys2Proof/Laws/Step.lean ====
section
/-! SUPPORT. What the boundary check, the fetch and the step can do, said once. -/

namespace Sys2Proof.Machine

theorem instructionEnd_toNat (pc : Word) : (instructionEnd pc).toNat = min (pc.toNat + 2) 0xFFFF := by
  simp only [instructionEnd, BitVec.toNat_ofNat]
  omega

/-- The boundary check raises its fault exactly outside the program interval (rule R82). -/
theorem boundaryFault_outside {s : State} (h : OutsideProgram s) :
    boundaryFault s =
      some (.programBoundsViolation s.pc (instructionEnd s.pc) s.programStart s.programEnd) := by
  unfold OutsideProgram at h
  rw [boundaryFault, instructionEnd_toNat, if_pos h]

theorem boundaryFault_inside {s : State} (h : ¬ OutsideProgram s) : boundaryFault s = none := by
  unfold OutsideProgram at h
  rw [boundaryFault, instructionEnd_toNat, if_neg h]

theorem fetch_outside {s : State} (h : OutsideProgram s) :
    fetch s = .error (.programBoundsViolation s.pc (instructionEnd s.pc) s.programStart s.programEnd) := by
  rw [fetch, boundaryFault_outside h]

theorem fetch_top {s : State} (h : ¬ OutsideProgram s) (hpc : s.pc = 0xFFFF#16) :
    fetch s = .error (.memoryOutOfBounds 0xFFFF#16) := by
  rw [fetch, boundaryFault_inside h, hpc]; rfl

theorem fetch_inside {s : State} (h : ¬ OutsideProgram s) (hpc : s.pc ≠ 0xFFFF#16) :
    fetch s =
      .ok (wordOfBytes (s.readByte s.pc) (s.readByte (s.pc + 1)), s.setPc (s.pc + 2)) := by
  simp only [fetch, boundaryFault_inside h, State.readWord_ok s hpc]

theorem step_faulted {s : State} {f : Fault} (h : s.fault = some f) : step s = .fault f := by
  rw [step, h]

theorem step_halted {s : State} (h : s.fault = none) (hh : s.halted = true) : step s = .next s := by
  simp [step, h, hh]

theorem step_running {s : State} (h : s.fault = none) (hh : s.halted = false) :
    step s =
      match fetch s with
      | .error f => raise f s
      | .ok (w, t) =>
        match decode s.params.enc w with
        | .error e => raise (.invalidInstruction w e) t
        | .ok i => exec i t := by
  unfold step
  rw [h, hh]
  rfl

/-- Everything a step that answers a next state can have done. -/
theorem step_next_cases {s t : State} (h : step s = .next t) :
    s.fault = none ∧
      ((s.halted = true ∧ t = s) ∨
        (s.halted = false ∧
          ((OutsideProgram s ∧ t = s.latch
              (.programBoundsViolation s.pc (instructionEnd s.pc) s.programStart s.programEnd)) ∨
            (¬ OutsideProgram s ∧ s.pc = 0xFFFF#16 ∧ t = s.latch (.memoryOutOfBounds 0xFFFF#16)) ∨
            (∃ w, Fetches s w ∧
              ((∃ e, decode s.params.enc w = .error e ∧ t = (s.setPc (s.pc + 2)).latch (.invalidInstruction w e)) ∨
                ∃ i, decode s.params.enc w = .ok i ∧ exec i (s.setPc (s.pc + 2)) = .next t))))) := by
  rcases hf : s.fault with _ | f
  · refine ⟨rfl, ?_⟩
    rcases hh : s.halted with _ | _
    · refine Or.inr ⟨rfl, ?_⟩
      rw [step_running hf hh] at h
      by_cases ho : OutsideProgram s
      · rw [fetch_outside ho] at h
        exact Or.inl ⟨ho, by cases h; rfl⟩
      · by_cases hpc : s.pc = 0xFFFF#16
        · rw [fetch_top ho hpc] at h
          exact Or.inr (Or.inl ⟨ho, hpc, by cases h; rfl⟩)
        · rw [fetch_inside ho hpc] at h
          refine Or.inr (Or.inr ⟨_, ⟨hf, hh, ho, hpc, rfl⟩, ?_⟩)
          simp only at h
          split at h
          · next e he => exact Or.inl ⟨e, he, by cases h; rfl⟩
          · next i hi => exact Or.inr ⟨i, hi, h⟩
    · rw [step_halted hf hh] at h
      exact Or.inl ⟨rfl, by cases h; rfl⟩
  · rw [step_faulted hf] at h; cases h

end Sys2Proof.Machine
end

