-- ==== Sys2Proof/Tests/Slice0.lean ====
section
/-! SUPPORT. Tests with expected values from `spec/95_test_vectors.md` (named by their row) or worked out by
hand from the rule named, and a witness for the hypotheses of every statement. -/

namespace Sys2Proof.Tests

open Sys2Proof Sys2Proof.Machine

/-! ## Helpers -/

/-- Registers R1, R2, R3, R5 given, the others 0; everything else as at reset. -/
def withRegs (r1 r2 r3 r5 : Word) : State :=
  (((State.reset.setReg 1 r1).setReg 2 r2).setReg 3 r3).setReg 5 r5

/-- The start state of the spec's vectors: the word `w` at 0x0100, the interval [0000, FFFF). -/
def at0100 (w : Word) (s : State) : State :=
  { s with
    pc := 0x0100
    sp := 0xFFFE
    programEnd := 0xFFFF
    mem := [(0x0100, lowByte w), (0x0101, highByte w)].filter (fun kb => kb.2 != 0) }

/-- What `f` shows of the next state. -/
def seen {α : Type} (o : Outcome) (f : State → α) : Option α :=
  match o with
  | .next t => some (f t)
  | .fault _ => none
  | .refused _ => none

/-- The destination R3 and the packed flags after the vector's step. -/
def r3AndFlags (t : State) : Word × Word := (t.reg 3, packFlags t.flags)

/-- R1 and the packed flags. -/
def r1AndFlags (t : State) : Word × Word := (t.reg 1, packFlags t.flags)

/-- pc, sp and the fault latch. -/
def control (t : State) : Word × Word × Option Fault := (t.pc, t.sp, t.fault)

/-- The flags whose packed value is `v`. -/
def flagsAre (v : Word) (s : State) : State := s.setFlags (unpackFlags v)

/-- The other setting of `EA_INDIRECT` and `ORI_MODE`. -/
def otherParams (s : State) : State :=
  { s with params := { s.params with eaIndirect := .contents, oriMode := .andCompat } }

/-- Another assignment that the source allows: Add and Pop trade their numbers, the immediates turn round,
two jumps, the two moves and two selectors are swapped. -/
def otherEnc : Config.Enc :=
  { r := { Config.Enc.spec.r with add := (0xE, 5), pop := (0x0, 0) }
    i := { ld := 0x8, st := 0x7, addi := 0x6, andi := 0x5, ori := 0x4, lui := 0x3, cmpi := 0x2 }
    j := { Config.Enc.spec.j with call := 0xD, jgt := 0x9 }
    e := { mfs := 0x2, mts := 0x1 }
    sel := { pc := 0, sp := 2, flags := 1 } }

/-- The same machine with that assignment. -/
def withOtherEnc (s : State) : State := { s with params := { s.params with enc := otherEnc } }

/-! ## Well-formedness: each check refuses an ill-formed term -/

theorem test_call_delta_too_long : (Instr.call 0x0800).wellFormed = false := by decide
theorem test_jmp_delta_too_long : (Instr.jmp 0xF7FF).wellFormed = false := by decide
theorem test_jz_delta_too_long : (Instr.jz 0x1000).wellFormed = false := by decide
theorem test_jnz_delta_too_long : (Instr.jnz 0x8000).wellFormed = false := by decide
theorem test_jgt_delta_too_long : (Instr.jgt 0x7FFF).wellFormed = false := by decide
theorem test_delta_bounds_fit : (Instr.jmp 0x07FF).wellFormed = true ∧ (Instr.jmp 0xF800).wellFormed = true := by
  decide
theorem test_rType_opcode_range : (Fields.rType 0x2 0 0 0 0).wellFormed .spec = false := by decide
theorem test_rType_opcode_unassigned : (Fields.rType 0xE 0 0 0 0).wellFormed .spec = false := by decide
theorem test_iType_opcode_low : (Fields.iType 0x1 0 0).wellFormed .spec = false := by decide
theorem test_iType_opcode_high : (Fields.iType 0x9 0 0).wellFormed .spec = false := by decide
theorem test_jType_opcode_low : (Fields.jType 0x8 0).wellFormed .spec = false := by decide
theorem test_jType_opcode_high : (Fields.jType 0xE 0).wellFormed .spec = false := by decide

/-! An assignment of numbers with an R-type, I-type or J-type opcode out of range, a selector above 2, or
one number given twice. -/

theorem test_enc_rType_range :
    { Config.Enc.spec with r := { Config.Enc.spec.r with add := (0x2, 0) } }.wellFormed = false := by decide
theorem test_enc_iType_range :
    { Config.Enc.spec with i := { Config.Enc.spec.i with cmpi := 0x9 } }.wellFormed = false := by decide
theorem test_enc_jType_range :
    { Config.Enc.spec with j := { Config.Enc.spec.j with call := 0x8 } }.wellFormed = false := by decide
theorem test_enc_selector_range :
    { Config.Enc.spec with sel := { Config.Enc.spec.sel with pc := 3 } }.wellFormed = false := by decide
theorem test_enc_rType_twice :
    { Config.Enc.spec with r := { Config.Enc.spec.r with pop := (0x1, 4) } }.wellFormed = false := by decide
theorem test_enc_iType_twice :
    { Config.Enc.spec with i := { Config.Enc.spec.i with ld := 0x3 } }.wellFormed = false := by decide
theorem test_enc_jType_twice :
    { Config.Enc.spec with j := { Config.Enc.spec.j with call := 0xA } }.wellFormed = false := by decide
theorem test_enc_subcode_taken :
    { Config.Enc.spec with e := { mfs := 0x1, mts := 0xE } }.wellFormed = false := by decide
theorem test_enc_selector_twice :
    { Config.Enc.spec with sel := { Config.Enc.spec.sel with pc := 1 } }.wellFormed = false := by decide

/-! ## Decoding: every constructor from a word written out from the patterns of rules R58 to R61 -/

theorem test_decode_alu :
    decode .spec 0b0000011001010000 = .ok (.add 3 1 2) ∧ decode .spec 0b0000011001010001 = .ok (.sub 3 1 2) ∧
    decode .spec 0b0000011001010010 = .ok (.and 3 1 2) ∧ decode .spec 0b0000011001010011 = .ok (.or 3 1 2) ∧
    decode .spec 0b0000011001010100 = .ok (.xor 3 1 2) ∧ decode .spec 0b0000011001111101 = .ok (.not 3 1) ∧
    decode .spec 0b0000011001010110 = .ok (.shl 3 1 2) ∧ decode .spec 0b0000011001010111 = .ok (.shr 3 1 2) := by decide

theorem test_decode_memory_stack :
    decode .spec 0b0001011101000000 = .ok (.ldr 3 5) ∧ decode .spec 0b0001011101000001 = .ok (.str 3 5) ∧
    decode .spec 0b0001111001010010 = .ok (.cmp 1 2) ∧ decode .spec 0b0001111111111011 = .ok .ret ∧
    decode .spec 0b0001000001000100 = .ok (.push 1) ∧ decode .spec 0b0001010000000101 = .ok (.pop 2) := by decide

theorem test_decode_immediate :
    decode .spec 0b0010101100011111 = .ok (.ld 5 0x1F) ∧ decode .spec 0b0011011000011111 = .ok (.st 3 0x1F) ∧
    decode .spec 0b0100001011111111 = .ok (.addi 1 0xFF) ∧ decode .spec 0b0101001000001111 = .ok (.andi 1 0x0F) ∧
    decode .spec 0b0110001000110100 = .ok (.ori 1 0x34) ∧ decode .spec 0b0111001000010010 = .ok (.lui 1 0x12) ∧
    decode .spec 0b1000001000001010 = .ok (.cmpi 1 0x0A) := by decide

theorem test_decode_jump :
    decode .spec 0b1001111111110000 = .ok (.call 0xFFF0) ∧ decode .spec 0b1010100000000000 = .ok (.jmp 0xF800) ∧
    decode .spec 0b1011000000000110 = .ok (.jz 0x0006) ∧ decode .spec 0b1100000000000110 = .ok (.jnz 0x0006) ∧
    decode .spec 0b1101000000000110 = .ok (.jgt 0x0006) := by decide

theorem test_decode_extended :
    decode .spec 0b1111000011111111 = .ok .nop ∧ decode .spec 0b1111000101000100 = .ok (.mfs 1 .flags) ∧
    decode .spec 0b1111001000000100 = .ok (.mts .pc 1) ∧ decode .spec 0b1111111000000000 = .ok .sysall ∧
    decode .spec 0b1111111111111111 = .ok .halt := by decide

/-- Rows E7, E15, E19, E20, E21, E23, E24. -/
theorem test_decode_errors :
    decode .spec 0xF164 = .error (.invalidSpecialRegister 3) ∧ decode .spec 0xF264 = .error (.invalidSpecialRegister 3) ∧
    decode .spec 0xF300 = .error (.invalidEType 3) ∧ decode .spec 0xFD00 = .error (.invalidEType 0xD) ∧
    decode .spec 0xE000 = .error (.unassignedOpcode 0xE) ∧ decode .spec 0x1006 = .error (.invalidRType 1 6) ∧
    decode .spec 0x1FFF = .error (.invalidRType 1 7) := by decide

/-- Row S1: the word codec keeps an unused field. -/
theorem test_codec_keeps_unused_field :
    splitWord .spec 0x067D = .ok (.rType 0 3 1 7 5) ∧ joinFields (.rType 0 3 1 7 5) = 0x067D := by decide

/-- Under another assignment the same words stand for other instructions (`ENC` in the last table of
`spec/92_eei_decisions.md`). -/
theorem test_decode_other_enc :
    decode otherEnc 0b1110011001010101 = .ok (.add 3 1 2) ∧ decode otherEnc 0b0000011001010000 = .ok (.pop 3) ∧
    decode otherEnc 0b1111001000100100 = .ok (.mfs 1 .flags) ∧
    decode otherEnc 0b1110000000000000 = .error (.invalidRType 0xE 0) := by decide

/-- A machine decodes with its own assignment: 0x4205 is an OrImmediate of R1 with 5 there. -/
theorem test_step_uses_own_enc :
    seen (step (withOtherEnc (at0100 0x4205 (withRegs 0x30 0 0 0)))) r1AndFlags = some (0x35, 0) := by decide

/-- The host's table words: the word 0x4205 of row I6, and one with no instruction. -/
theorem test_decodeTableWord :
    decodeTableWord 16 0x4205 = some (.addi 1 5) ∧ decodeTableWord 16 0xE000 = none := by decide

/-- A word put where the first step after reset fetches runs as that step (row I6). -/
theorem test_withFetchWord_runs :
    seen (step (State.reset.withFetchWord 16 0x4205)) r1AndFlags = some (5, 0) := by decide

theorem test_assembly :
    Instr.asm (.jmp 0xFFFE) = { mnemonic := "JMP", operands := [.num (-2)] } ∧
    assemble { mnemonic := "ADDI", operands := [.reg 1, .num (-1)] } = some (.addi 1 0xFF) := by decide

/-- The ends of the two immediate ranges of rule R70, and the numbers next to them. -/
theorem test_assembly_ranges :
    assemble { mnemonic := "ADDI", operands := [.reg 1, .num 127] } = some (.addi 1 0x7F) ∧
    assemble { mnemonic := "ADDI", operands := [.reg 1, .num 128] } = none ∧
    assemble { mnemonic := "LD", operands := [.reg 1, .num 255] } = some (.ld 1 0xFF) ∧
    assemble { mnemonic := "LD", operands := [.reg 1, .num (-1)] } = none := by decide

/-! ## Register-register ALU -/

/-- Row A2. -/
theorem test_add_overflow :
    seen (step (at0100 0x0650 (withRegs 0x7FFF 1 0 0))) r3AndFlags = some (0x8000, 0xC) := by decide

/-- Row A7: R0 as destination. -/
theorem test_add_to_r0 :
    seen (step (at0100 0x0050 (withRegs 0xFFFF 1 0 0))) (fun t => (t.reg 0, t.regs, packFlags t.flags)) =
      some (0, (withRegs 0xFFFF 1 0 0).regs, 3) := by decide

/-- Row A9. -/
theorem test_sub_borrow :
    seen (step (at0100 0x0651 (withRegs 0 1 0 0))) r3AndFlags = some (0xFFFF, 6) := by decide

/-- Row A12. -/
theorem test_sub_overflow :
    seen (step (at0100 0x0651 (withRegs 0x7FFF 0xFFFF 0 0))) r3AndFlags = some (0x8000, 0xE) := by decide

/-- Row A17. -/
theorem test_and :
    seen (step (at0100 0x0652 (withRegs 0x8000 0xFFFF 0 0))) r3AndFlags = some (0x8000, 4) := by decide

/-- Row A21: a copy that clobbers the flags. -/
theorem test_or_clears_flags :
    seen (step (flagsAre 0xF (at0100 0x0643 (withRegs 0x1234 0 0 0)))) r3AndFlags = some (0x1234, 0) := by decide

/-- Row A22. -/
theorem test_xor :
    seen (step (at0100 0x0654 (withRegs 0xAAAA 0xFFFF 0 0))) r3AndFlags = some (0x5555, 0) := by decide

/-- Row A26, with the rt field 7. -/
theorem test_not :
    seen (step (at0100 0x067D (withRegs 0x00FF 0 0 0))) r3AndFlags = some (0xFF00, 4) := by decide

/-- Row A33: the carry is bit 1 of the value. -/
theorem test_shl_carry :
    seen (step (at0100 0x0656 (withRegs 3 0xF 0 0))) r3AndFlags = some (0x8000, 6) := by decide

/-- Row A36: an amount of 16 is 0 and keeps the flags. -/
theorem test_shl_by_sixteen :
    seen (step (flagsAre 5 (at0100 0x0656 (withRegs 0x1234 0x10 0 0)))) r3AndFlags = some (0x1234, 5) := by decide

/-- Row A39: logical. -/
theorem test_shr_logical :
    seen (step (at0100 0x0657 (withRegs 0x8000 1 0 0))) r3AndFlags = some (0x4000, 0) := by decide

/-- Row A42. -/
theorem test_shr_carry :
    seen (step (at0100 0x0657 (withRegs 0xFFFF 4 0 0))) r3AndFlags = some (0x0FFF, 2) := by decide

/-- Row A55. -/
theorem test_cmp_overflow :
    seen (step (at0100 0x1052 (withRegs 0x7FFF 0x8000 0 0))) r3AndFlags = some (0, 0xE) := by decide

/-! ## Register-addressed memory and the stack -/

/-- Row M1 under both settings: the word at 0005 is BEEF, the word at 2000 is 1111. -/
theorem test_ldr_both_settings :
    seen (exec (.ldr 3 5)
      { withRegs 0 0 0 0x2000 with mem := [(5, 0xEF), (6, 0xBE), (0x2000, 0x11), (0x2001, 0x11)] })
      (fun t => t.reg 3) = some 0xBEEF ∧
    seen (exec (.ldr 3 5) (otherParams
      { withRegs 0 0 0 0x2000 with mem := [(5, 0xEF), (6, 0xBE), (0x2000, 0x11), (0x2001, 0x11)] }))
      (fun t => t.reg 3) = some 0x1111 := by decide

/-- Row M2 under `contents`. -/
theorem test_ldr_top_faults :
    seen (step (otherParams (at0100 0x1740 (withRegs 0 0 7 0xFFFF)))) (fun t => (t.reg 3, control t)) =
      some (7, 0x0102, 0xFFFE, some (.memoryOutOfBounds 0xFFFF)) := by decide

/-- Row M4 under both settings. -/
theorem test_str_both_settings :
    seen (exec (.str 3 5) (withRegs 0 0 0xABCD 0x2000)) (fun t => t.mem) = some [(5, 0xCD), (6, 0xAB)] ∧
    seen (exec (.str 3 5) (otherParams (withRegs 0 0 0xABCD 0x2000))) (fun t => t.mem) =
      some [(0x2000, 0xCD), (0x2001, 0xAB)] := by decide

/-- Row M8: the word pushed at address 0. -/
theorem test_push_at_two :
    seen (exec (.push 1) ((withRegs 0x1234 0 0 0).setSp 2)) (fun t => (t.sp, t.mem, t.fault)) =
      some (0, [(0, 0x34), (1, 0x12)], none) := by decide

/-- Row M9. -/
theorem test_push_at_one_faults :
    seen (step ((at0100 0x1044 (withRegs 0x1234 0 0 0)).setSp 1)) control =
      some (0x0102, 1, some .stackOverflow) := by decide

/-- Row M13: a pop at 0xFFFE wraps sp. -/
theorem test_pop_wraps :
    seen (exec (.pop 2) { (withRegs 0 0 0 0).setSp 0xFFFE with mem := [(0xFFFE, 0x78), (0xFFFF, 0x56)] })
      (fun t => (t.reg 2, t.sp)) = some (0x5678, 0) := by decide

/-- Row M14. -/
theorem test_pop_top_faults :
    seen (step ((at0100 0x1405 (withRegs 0 9 0 0)).setSp 0xFFFF)) (fun t => (t.reg 2, control t)) =
      some (9, 0x0102, 0xFFFF, some .stackOverflow) := by decide

/-- Row M17. -/
theorem test_ret :
    seen (exec .ret { State.reset with sp := 0xFFFC, mem := [(0xFFFC, 0x04), (0xFFFD, 0x02)] }) control =
      some (0x0204, 0xFFFE, none) := by decide

/-- Row M18. -/
theorem test_ret_top_faults :
    seen (step ((at0100 0x1003 State.reset).setSp 0xFFFF)) control =
      some (0x0102, 0xFFFF, some .stackOverflow) := by decide

/-! ## Immediate -/

/-- Row I2: the high byte is the low byte of the instruction itself. -/
theorem test_ld_overlaps_code :
    seen (step { at0100 0x2AFF State.reset with mem := [(0xFF, 0xB2), (0x100, 0xFF), (0x101, 0x2A)] })
      (fun t => t.reg 5) = some 0xFFB2 := by decide

/-- Row I4: a high byte of 0 leaves no entry. -/
theorem test_st :
    seen (exec (.st 3 0x1F) (withRegs 0 0 8 0)) (fun t => (t.mem, t.readWord 0x1E)) =
      some ([(0x1F, 0x08)], .ok 0x0800) := by decide

/-- Row I7: adding -1 is an addition, with its carry out. -/
theorem test_addi_minus_one :
    seen (step (at0100 0x42FF (withRegs 5 0 0 0))) r1AndFlags = some (4, 2) := by decide

/-- Row I10. -/
theorem test_addi_lowest :
    seen (step (at0100 0x4280 (withRegs 0x8000 0 0 0))) r1AndFlags = some (0x7F80, 0xA) := by decide

/-- Row I14: the immediate is zero-extended. -/
theorem test_andi_clears_high_byte :
    seen (step (at0100 0x52FF (withRegs 0xFFFF 0 0 0))) r1AndFlags = some (0x00FF, 0) := by decide

/-- Row I17 under both settings. -/
theorem test_ori_both_settings :
    seen (step (at0100 0x6280 (withRegs 0x8000 0 0 0))) r1AndFlags = some (0x8080, 4) ∧
    seen (step (otherParams (at0100 0x6280 (withRegs 0x8000 0 0 0)))) r1AndFlags = some (0, 1) := by decide

/-- Row I19. -/
theorem test_lui_keeps_flags :
    seen (step (flagsAre 0xF (at0100 0x7212 (withRegs 0xFFFF 0 0 0)))) r1AndFlags = some (0x1200, 0xF) := by
  decide

/-- Row I23: 0 - 0xFFFF borrows. -/
theorem test_cmpi_borrow :
    seen (step (at0100 0x82FF (withRegs 0 0 0 0))) r1AndFlags = some (0, 2) := by decide

/-! ## Jumps -/

/-- Row J13. -/
theorem test_call :
    seen (step (at0100 0x9020 State.reset)) (fun t => (control t, t.readWord 0xFFFC)) =
      some ((0x0122, 0xFFFC, none), .ok 0x0102) := by decide

/-- Row J15. -/
theorem test_call_full_stack_faults :
    seen (step ((at0100 0x9020 State.reset).setSp 1)) control = some (0x0102, 1, some .stackOverflow) := by
  decide

/-- Row J4: wraps below 0. -/
theorem test_jmp_lowest : seen (step (at0100 0xA800 State.reset)) control = some (0xF902, 0xFFFE, none) := by
  decide

/-- Row J9. -/
theorem test_jz :
    seen (step (flagsAre 1 (at0100 0xB006 State.reset))) (fun t => t.pc) = some 0x0108 ∧
    seen (step (flagsAre 0 (at0100 0xB006 State.reset))) (fun t => t.pc) = some 0x0102 := by decide

/-- Row J10. -/
theorem test_jnz :
    seen (step (flagsAre 0 (at0100 0xC006 State.reset))) (fun t => t.pc) = some 0x0108 ∧
    seen (step (flagsAre 1 (at0100 0xC006 State.reset))) (fun t => t.pc) = some 0x0102 := by decide

/-- Rows J11 and J12: taken for exactly the packed values 0, 2, C and E. -/
theorem test_jgt_taken_set :
    (List.range 16).filter (fun k => greaterThan (unpackFlags (BitVec.ofNat 16 k))) = [0x0, 0x2, 0xC, 0xE] := by
  decide

/-! ## Extended, and the words that are no instruction -/

/-- Row E2. -/
theorem test_nop :
    seen (step (at0100 0xF0FF State.reset)) (fun t => decide (t = { at0100 0xF0FF State.reset with pc := 0x0102 })) =
      some true := by decide

/-- Rows E3 and E5. -/
theorem test_mfs :
    seen (step (at0100 0xF104 State.reset)) r1AndFlags = some (0x0102, 0) ∧
    seen (step (flagsAre 0xB (at0100 0xF144 State.reset))) r1AndFlags = some (0x000B, 0xB) := by decide

/-- Rows E10 and E11. -/
theorem test_mts_pc_sp :
    seen (step (at0100 0xF204 (withRegs 0x0201 0 0 0))) control = some (0x0201, 0xFFFE, none) ∧
    seen (step (at0100 0xF224 (withRegs 0x8000 0 0 0))) control = some (0x0102, 0x8000, none) := by decide

/-- Row E13: Z, C, N, V are bits 0, 1, 2, 3. -/
theorem test_mts_flags :
    seen (step (at0100 0xF244 (withRegs 0x1235 0 0 0))) (fun t => t.flags) =
      some { z := true, n := true, c := false, v := false } := by decide

/-- Row E16. -/
theorem test_sysall :
    seen (step (at0100 0xFE00 State.reset)) control = some (0x0102, 0xFFFE, some .notImplemented) := by decide

/-- Rows E17 and B18. -/
theorem test_halt :
    (stepTransaction (at0100 0xFF00 State.reset)).map (fun r => (r.1, r.2.halted, r.2.pc)) =
      some (.progress, true, 0x0102) ∧
    (stepTransaction { at0100 0xFF00 State.reset with halted := true }).map (fun r => r.1) =
      some .noProgress := by decide

/-- Row E7. -/
theorem test_bad_selector_faults :
    seen (step (at0100 0xF164 State.reset)) control =
      some (0x0102, 0xFFFE, some (.invalidInstruction 0xF164 (.invalidSpecialRegister 3))) := by decide

/-- Rows B1 and B5: the interval [0010, 001C). -/
theorem test_program_bounds :
    seen (step { State.reset with programStart := 0x10, programEnd := 0x1C, pc := 0x0E }) control =
      some (0x0E, 0, some (.programBoundsViolation 0x0E 0x10 0x10 0x1C)) ∧
    seen (step { State.reset with programStart := 0x10, programEnd := 0x1C, pc := 0x1B }) control =
      some (0x1B, 0, some (.programBoundsViolation 0x1B 0x1D 0x10 0x1C)) := by decide

/-- Rows B8, B12 and B13. -/
theorem test_step_at_the_edges :
    seen (step State.reset) control = some (0, 0, some (.programBoundsViolation 0 2 0 0)) ∧
    seen (step { State.reset with
      programStart := 0xFFFE, programEnd := 0xFFFF, pc := 0xFFFE, mem := [(0xFFFF, 0xF0)] }) control =
      some (0, 0, none) ∧
    seen (step { State.reset with programStart := 0xFFFF, programEnd := 0xFFFF, pc := 0xFFFF }) control =
      some (0xFFFF, 0, some (.memoryOutOfBounds 0xFFFF)) := by decide

/-- Row B17: what a LOAD sets and what it keeps. -/
theorem test_load_sets_and_keeps :
    seen ((flagsAre 5 (withRegs 5 3 8 8)).load [0x00, 0xFF] 0x20)
      (fun t => (t.programStart, t.programEnd, t.pc, t.sp)) = some (0x20, 0x22, 0x20, 0xFFFE) ∧
    seen ((flagsAre 5 (withRegs 5 3 8 8)).load [0x00, 0xFF] 0x20)
      (fun t => (t.reg 3, packFlags t.flags, t.mem)) = some (8, 5, [(0x21, 0xFF)]) := by decide

/-- Row B16 and the bound of `get_range` (rule R179). -/
theorem test_outside_address_space :
    State.reset.load [0, 0] 0xFFFE = .refused .loadBeyondAddressSpace ∧
    State.reset.getRange 0xFFFF 1 = [0] ∧ State.reset.getRange 0xFFFF 2 = [] :=
  ⟨rfl, by decide, by decide⟩

/-! ## Witnesses: a state and operands that meet the hypotheses of each statement, clause by clause -/

/-- A machine that is about to fetch `w` at 0xFFFE, the last word, with the interval [0000, FFFF). -/
def atTop (w : Word) : State :=
  { State.reset with
    pc := 0xFFFE
    programEnd := 0xFFFF
    mem := [(0xFFFE, lowByte w), (0xFFFF, highByte w)].filter (fun kb => kb.2 != 0) }

/-- A machine that has latched a fault. -/
def faulted : State := State.reset.latch .stackOverflow

/-- Two legal assignments. -/
theorem witness_DecodeEncodeRoundTrip :
    Config.Enc.spec.wellFormed = true ∧ otherEnc.wellFormed = true ∧ (Instr.call 0xF800).wellFormed = true := by
  decide

theorem witness_WordCodecIsBijection :
    layoutOf .spec (opcodeOf 0xD7FF) ≠ none ∧ layoutOf otherEnc (opcodeOf 0xE650) ≠ none ∧
    (Fields.iType 0x8 7 0x1FF).wellFormed .spec = true := by decide

theorem witness_EncodeOfDecodeClearsIgnoredBits : decode .spec 0x067D = .ok (.not 3 1) := by decide

theorem witness_IgnoredBitsSelectNothing :
    decode .spec 0x0645 = .ok (.not 3 1) ∧ 0x067D#16 &&& usedBits (.not 3 1) = 0x0645#16 &&& usedBits (.not 3 1) := by
  decide

/-- A word for each branch. -/
theorem witness_DecodeErrorsPartitionTheWords :
    opcodeOf 0xE000 = 0xE#4 ∧ (opcodeOf 0x1006 = 0x1#4 ∧ 6 ≤ (functOf 0x1006).toNat) ∧
    (opcodeOf 0xF164 = 0xF#4 ∧ subcodeOf 0xF164 = 0x1#4 ∧ 3 ≤ (eRsOf 0xF164).toNat) ∧
    (opcodeOf 0xF300 = 0xF#4 ∧ 0x3 ≤ (subcodeOf 0xF300).toNat ∧ (subcodeOf 0xFD00).toNat ≤ 0xD) ∧
    decode .spec 0x1005 = .ok (.pop 0) := by decide

/-- Just outside each range: -129 and 128 for ADDI, -1 and 256 for LD, -2049 and 2048 for a jump. -/
theorem witness_AssembleOfAssemblyLine :
    (Instr.jgt 0x07FF).wellFormed = true ∧
    ("ADDI" ∈ ["ADDI", "CMPI"] ∧ ((-129 : Int) < -128 ∨ (127 : Int) < -129)) ∧
    ("CMPI" ∈ ["ADDI", "CMPI"] ∧ ((128 : Int) < -128 ∨ (127 : Int) < 128)) ∧
    ("LD" ∈ ["LD", "ST", "ANDI", "ORI", "LUI"] ∧ ((-1 : Int) < 0 ∨ (255 : Int) < -1)) ∧
    ("LUI" ∈ ["LD", "ST", "ANDI", "ORI", "LUI"] ∧ ((256 : Int) < 0 ∨ (255 : Int) < 256)) ∧
    ((-2049 : Int) < -2048 ∨ (2047 : Int) < -2049) ∧ ((2048 : Int) < -2048 ∨ (2047 : Int) < 2048) := by decide

theorem witness_RegisterReadAfterWrite : (7#3 : Reg) ≠ 0#3 ∧ (1#3 : Reg) ≠ 7#3 := by decide

theorem witness_WordAccessIsLittleEndian : (0xFFFE#16 : Word) ≠ 0xFFFF#16 := by decide

theorem witness_OverlappingWordAccess :
    ∃ t, State.reset.writeWord 0xFFFD 0x1234 = .ok t ∧ (0xFFFD#16 + 1 : Word) ≠ 0xFFFF#16 :=
  ⟨_, rfl, by decide⟩

theorem witness_CanonicalMemoryIsUnique :
    Memory.wf [(0, 1), (0xFFFF, 2)] = true ∧
      ∀ a, Memory.read [(0, 1), (0xFFFF, 2)] a = Memory.read [(0, 1), (0xFFFF, 2)] a :=
  ⟨by decide, fun _ => rfl⟩

theorem witness_AddFormsWriteSumAndFlags :
    (opcodeOf 0x0650 = 0x0#4 ∧ functOf 0x0650 = 0#3) ∧ opcodeOf 0x42FF = 0x4#4 := by decide

theorem witness_SubWritesDifferenceAndFlags : opcodeOf 0x0651 = 0x0#4 ∧ functOf 0x0651 = 1#3 := by decide

theorem witness_LogicWritesResultAndFlags :
    (opcodeOf 0x0652 = 0x0#4 ∧ functOf 0x0652 = 2#3) ∧ (opcodeOf 0x0653 = 0x0#4 ∧ functOf 0x0653 = 3#3) ∧
    (opcodeOf 0x0654 = 0x0#4 ∧ functOf 0x0654 = 4#3) := by decide

theorem witness_NotWritesComplementAndFlags : opcodeOf 0x067D = 0x0#4 ∧ functOf 0x067D = 5#3 := by decide

/-- The words, and an amount on each side of the boundary of the two cases. -/
theorem witness_ShiftsWriteResultAndFlags :
    (opcodeOf 0x0656 = 0x0#4 ∧ functOf 0x0656 = 6#3) ∧ (opcodeOf 0x0657 = 0x0#4 ∧ functOf 0x0657 = 7#3) ∧
    ((withRegs 0 0x10 0 0).reg 2).toNat % 16 = 0 ∧ ((withRegs 0 0x0F 0 0).reg 2).toNat % 16 ≠ 0 := by decide

theorem witness_ComparesWriteFlagsOnly :
    (opcodeOf 0x1E52 = 0x1#4 ∧ functOf 0x1E52 = 2#3) ∧ opcodeOf 0x820A = 0x8#4 := by decide

/-- Under `contents` the last address that loads is 0xFFFE, and 0xFFFF faults. -/
theorem witness_LoadIndirectLoadsWord :
    (opcodeOf 0x1740 = 0x1#4 ∧ functOf 0x1740 = 0#3) ∧
    (withRegs 0 0 0 0xFFFF).params.eaIndirect = .regnum ∧
    ((otherParams (withRegs 0 0 0 0xFFFE)).params.eaIndirect = .contents ∧
      (otherParams (withRegs 0 0 0 0xFFFE)).reg 5 ≠ 0xFFFF#16) ∧
    (otherParams (withRegs 0 0 0 0xFFFF)).params.eaIndirect = .contents ∧
    (otherParams (withRegs 0 0 0 0xFFFF)).reg 5 = 0xFFFF#16 := by decide

theorem witness_StoreIndirectStoresWord :
    (opcodeOf 0x1741 = 0x1#4 ∧ functOf 0x1741 = 1#3) ∧
    (withRegs 0 0 1 0xFFFF).params.eaIndirect = .regnum ∧
    ((otherParams (withRegs 0 0 1 0xFFFE)).params.eaIndirect = .contents ∧
      (otherParams (withRegs 0 0 1 0xFFFE)).reg 5 ≠ 0xFFFF#16) ∧
    (otherParams (withRegs 0 0 1 0xFFFF)).params.eaIndirect = .contents ∧
    (otherParams (withRegs 0 0 1 0xFFFF)).reg 5 = 0xFFFF#16 := by decide

theorem witness_PushStoresBelowStack :
    (opcodeOf 0x1044 = 0x1#4 ∧ functOf 0x1044 = 4#3) ∧ 2 ≤ (State.reset.setSp 2).sp.toNat ∧
    (State.reset.setSp 1).sp.toNat < 2 := by decide

theorem witness_PopLoadsFromStack :
    (opcodeOf 0x1405 = 0x1#4 ∧ functOf 0x1405 = 5#3) ∧ (State.reset.setSp 0xFFFE).sp ≠ 0xFFFF#16 ∧
    (State.reset.setSp 0xFFFF).sp = 0xFFFF#16 := by decide

theorem witness_ReturnPopsIntoPc :
    (opcodeOf 0x1FFB = 0x1#4 ∧ functOf 0x1FFB = 3#3) ∧ (State.reset.setSp 0xFFFE).sp ≠ 0xFFFF#16 ∧
    (State.reset.setSp 0xFFFF).sp = 0xFFFF#16 := by decide

theorem witness_PushThenPopRestores : 2 ≤ (State.reset.setSp 2).sp.toNat := by decide

theorem witness_ReturnUndoesCall : 2 ≤ (State.reset.setSp 2).sp.toNat := by decide

theorem witness_LoadReadsLiteralAddress : opcodeOf 0x2BFF = 0x2#4 := by decide

theorem witness_StoreWritesLiteralAddress : opcodeOf 0x3FFF = 0x3#4 := by decide

theorem witness_LogicalImmediatesUnderBothModes :
    opcodeOf 0x52FF = 0x5#4 ∧ opcodeOf 0x6234 = 0x6#4 ∧ State.reset.params.oriMode = .or ∧
    (otherParams State.reset).params.oriMode = .andCompat := by decide

theorem witness_LoadUpperImmediateWritesHighByte : opcodeOf 0x72FF = 0x7#4 := by decide

theorem witness_UpperThenOrBuildsConstant : (1#3 : Reg) ≠ 0#3 := by decide

theorem witness_CallPushesReturnAddress :
    opcodeOf 0x9FF0 = 0x9#4 ∧ 2 ≤ (State.reset.setSp 2).sp.toNat ∧ (State.reset.setSp 1).sp.toNat < 2 := by
  decide

theorem witness_JumpsWritePcOnly :
    opcodeOf 0xA800 = 0xA#4 ∧ opcodeOf 0xB7FF = 0xB#4 ∧ opcodeOf 0xC006 = 0xC#4 ∧ opcodeOf 0xD006 = 0xD#4 := by
  decide

/-- The jump at 0xFFFE, whose target wraps. -/
theorem witness_JumpTargetFromItsAddress :
    Fetches (atTop 0xA7FF) 0xA7FF ∧ decode (atTop 0xA7FF).params.enc 0xA7FF = .ok (.jmp 0x07FF) := by
  unfold Fetches OutsideProgram; decide

theorem witness_NopOnlyAdvancesPc :
    (otherEnc.wellFormed = true ∧ opcodeOf 0xF0FF = 0xF#4 ∧ subcodeOf 0xF0FF = 0x0#4) ∧
    (atTop 0xF0FF).params.enc.wellFormed = true ∧ Fetches (atTop 0xF0FF) 0xF0FF := by
  unfold Fetches OutsideProgram; decide

theorem witness_MoveFromSpecialReads : opcodeOf 0xF164 = 0xF#4 ∧ subcodeOf 0xF164 = 0x1#4 := by decide

theorem witness_MoveToSpecialWrites : opcodeOf 0xF244 = 0xF#4 ∧ subcodeOf 0xF244 = 0x2#4 := by decide

theorem witness_SysallFaults :
    (otherEnc.wellFormed = true ∧ opcodeOf 0xFEFF = 0xF#4 ∧ subcodeOf 0xFEFF = 0xE#4) ∧
    (atTop 0xFEFF).params.enc.wellFormed = true ∧ Fetches (atTop 0xFEFF) 0xFEFF := by
  unfold Fetches OutsideProgram; decide

theorem witness_HaltStopsTheRun :
    (otherEnc.wellFormed = true ∧ opcodeOf 0xFFFF = 0xF#4 ∧ subcodeOf 0xFFFF = 0xF#4) ∧
    (atTop 0xFFFF).params.enc.wellFormed = true ∧ Fetches (atTop 0xFFFF) 0xFFFF := by
  unfold Fetches OutsideProgram; decide

theorem witness_StepRunsDecodedInstruction :
    (Fetches (atTop 0x4205) 0x4205 ∧ decode (atTop 0x4205).params.enc 0x4205 = .ok (.addi 1 5)) ∧
    Fetches (atTop 0xE000) 0xE000 ∧
    decode (atTop 0xE000).params.enc 0xE000 = .error (.unassignedOpcode 0xE) := by
  unfold Fetches OutsideProgram; decide

/-- pc just below the interval, a word that straddles its end, and a state inside. -/
theorem witness_BoundaryCheckFaults :
    OutsideProgram { State.reset with programStart := 0x10, programEnd := 0x1C, pc := 0x0F } ∧
    OutsideProgram { State.reset with programStart := 0x10, programEnd := 0x1C, pc := 0x1B } ∧
    ¬ OutsideProgram (atTop 0xF000) ∧
    ∃ t, step (atTop 0xF000) = .next t := by
  refine ⟨by unfold OutsideProgram; decide, by unfold OutsideProgram; decide,
    by unfold OutsideProgram; decide, _, rfl⟩

theorem witness_FetchReadsThenAdvances :
    ¬ OutsideProgram { State.reset with programEnd := 0xFFFF, pc := 0xFFFF } ∧
    ¬ OutsideProgram (atTop 0xF000) ∧ (atTop 0xF000).pc ≠ 0xFFFF#16 := by
  unfold OutsideProgram; decide

/-- A step for each kind of fault, MemoryOutOfBounds at the fetch and in a handler. -/
theorem witness_FaultsArePrecise :
    seen (step State.reset) (fun t => t.fault) = some (some (.programBoundsViolation 0 2 0 0)) ∧
    seen (step { State.reset with programEnd := 0xFFFF, pc := 0xFFFF }) (fun t => t.fault) =
      some (some (.memoryOutOfBounds 0xFFFF)) ∧
    seen (step (otherParams (at0100 0x1740 (withRegs 0 0 0 0xFFFF)))) (fun t => t.fault) =
      some (some (.memoryOutOfBounds 0xFFFF)) ∧
    seen (step (atTop 0xE000)) (fun t => t.fault) =
      some (some (.invalidInstruction 0xE000 (.unassignedOpcode 0xE))) ∧
    seen (step (atTop 0x1044)) (fun t => t.fault) = some (some .stackOverflow) ∧
    seen (step (atTop 0xFE00)) (fun t => t.fault) = some (some .notImplemented) := by decide

theorem witness_HaltedAndFaultedAreTerminal :
    faulted.fault = some .stackOverflow ∧
    (State.reset.setHalted.fault = none ∧ State.reset.setHalted.halted = true) ∧
    (∃ t, State.reset.load [0xFF] 0xFFFE = .next t) ∧
    ¬ ((atTop 0xFF00).halted = true ∧ (atTop 0xFF00).fault ≠ none) ∧
    ∃ t, stepTransaction (atTop 0xFF00) = some (.progress, t) :=
  ⟨rfl, ⟨rfl, rfl⟩, ⟨_, rfl⟩, by decide, _, rfl⟩

/-- One run that ends Halted and one that ends Faulted. -/
theorem witness_RunEndsHaltedOrFaulted :
    (runTransaction 2 (atTop 0xFF00)).map (fun r => r.1) = some .noProgress ∧
    (runTransaction 1 State.reset).map (fun r => r.1) = some (.fault (.programBoundsViolation 0 2 0 0)) := by
  decide

theorem witness_FetchSeesTheLastStore :
    ∃ t, (atTop 0).writeWord 0xFFFE 0xFF00 = .ok t ∧ ¬ OutsideProgram t :=
  ⟨_, rfl, by unfold OutsideProgram; decide⟩

/-- A running state that steps; a state with a handler's fault latched; and one with `MemoryOutOfBounds`
latched by the fetch, and one by LoadIndirect. -/
theorem witness_StepKeepsInvariant :
    (Inv (atTop 0x4205) ∧ ∃ t, step (atTop 0x4205) = .next t) ∧
    Inv { atTop 0xFE00 with pc := 0, fault := some .notImplemented } ∧
    Inv { State.reset with programEnd := 0xFFFF, pc := 0xFFFF, fault := some (.memoryOutOfBounds 0xFFFF) } ∧
    Inv (otherParams { at0100 0x1740 (withRegs 0 0 0 0xFFFF) with
      pc := 0x0102, fault := some (.memoryOutOfBounds 0xFFFF) }) :=
  ⟨⟨⟨by decide, by decide, trivial⟩, _, rfl⟩,
    ⟨by decide, by decide, show decode _ (wordBeforePc _) = _ by decide⟩,
    ⟨by decide, by decide, rfl, Or.inl ⟨rfl, by unfold OutsideProgram; decide⟩⟩,
    ⟨by decide, by decide, rfl, Or.inr ⟨rfl, 3, 5, by decide, Or.inl (show decode _ _ = _ by decide)⟩⟩⟩

theorem witness_InvariantAtReset : Memory.wf [(0xFFFF, 1)] = true := by decide

theorem witness_LoadKeepsInvariant :
    Inv (atTop 0x4205) ∧ ∃ t, (atTop 0x4205).load [0x00, 0xFF] 0xFFFD = .next t :=
  ⟨⟨by decide, by decide, trivial⟩, _, rfl⟩

theorem witness_OnlyListedInstructionsWriteFlags :
    (writesFlags (.lui 1 0) = false ∧ ∃ t, exec (.lui 1 0) State.reset = .next t) ∧
    ((withRegs 1 0x10 0 0).reg 2).toNat % 16 = 0 ∧ ∃ t, exec (.shl 3 1 2) (withRegs 1 0x10 0 0) = .next t :=
  ⟨⟨rfl, _, rfl⟩, by decide, _, rfl⟩

theorem witness_OnlyListedInstructionsWriteRegisters :
    (∃ t, exec (.add 3 1 2) State.reset = .next t) ∧ writesPc (.add 3 1 2) = false ∧
    writesSp (.add 3 1 2) = false ∧ destination (.add 3 1 2) ≠ some 1 :=
  ⟨⟨_, rfl⟩, by decide⟩

theorem witness_OnlyStoresWriteMemory :
    ((∃ t, exec (.cmp 1 2) State.reset = .next t) ∧ storeAddress State.reset (.cmp 1 2) = none) ∧
    (∃ t, exec (.st 1 0xFF) State.reset = .next t) ∧ storeAddress State.reset (.st 1 0xFF) = some 0x00FF ∧
    (0x0101#16 : Word) ≠ 0x00FF ∧ (0x0101#16 : Word) ≠ 0x00FF + 1 :=
  ⟨⟨⟨_, rfl⟩, by decide⟩, ⟨_, rfl⟩, by decide⟩

/-- A halted state, a step that halts, and a step that raises: outside the interval, at 0xFFFF, on a word
that is no instruction and in a handler. -/
theorem witness_ControlStateWriters :
    (State.reset.setHalted.halted = true ∧ ∃ t, step State.reset.setHalted = .next t) ∧
    ((atTop 0xFF00).halted = false ∧ seen (step (atTop 0xFF00)) (fun t => t.halted) = some true) ∧
    Raises State.reset ∧ Raises { State.reset with programEnd := 0xFFFF, pc := 0xFFFF } ∧
    Raises (atTop 0xE000) ∧ Raises (atTop 0xFE00) ∧ seen (step (atTop 0xFE00)) (fun t => t.fault) ≠ none := by
  refine ⟨⟨rfl, _, rfl⟩, by decide, ⟨rfl, rfl, Or.inl (by unfold OutsideProgram; decide)⟩,
    ⟨rfl, rfl, Or.inr (Or.inl rfl)⟩, ⟨rfl, rfl, Or.inr (Or.inr ⟨0xE000, ?_, Or.inl ⟨.unassignedOpcode 0xE, ?_⟩⟩)⟩,
    ⟨rfl, rfl, Or.inr (Or.inr ⟨0xFE00, ?_, Or.inr ⟨.sysall, ?_, ?_⟩⟩)⟩, by decide⟩
  · unfold Fetches OutsideProgram; decide
  · decide
  · unfold Fetches OutsideProgram; decide
  · decide
  · decide

theorem witness_ParametersReachThreeInstructions :
    readsParams (.push 1) = false ∧ ∃ t, exec (.push 1) (State.reset.setSp 2) = .next t := ⟨rfl, _, rfl⟩

/-- A LOAD that ends at 0xFFFF completes; one byte more is refused. -/
theorem witness_LoadSetsUpTheRun :
    (0xFFFE#16 : Word).toNat + [0x00#8].length ≤ 0xFFFF ∧
    0xFFFF < (0xFFFE#16 : Word).toNat + [0x00#8, 0xF0#8].length := by decide

/-- One instruction loaded at 0xFFFD, which ends at 0xFFFF. -/
theorem witness_FirstStepAfterLoad :
    State.reset.params.enc.wellFormed = true ∧ (withOtherEnc State.reset).params.enc.wellFormed = true ∧
    (Instr.jmp 0xF800).wellFormed = true ∧ (0xFFFD#16 : Word).toNat + 2 * (([] : List Word).length + 1) ≤ 0xFFFF := by
  decide

end Sys2Proof.Tests
end

/-! # Proofs of the scope family: the round trip of the codec, the writers of the control state, the reach of
the parameters, and the first step after a LOAD -/

namespace Sys2Proof

/-! ## The codec under a legal `ENC` (rules R68, R69, R72) -/

/-- Splitting the word of a field tuple whose opcode selects its layout gives the tuple back (rule R69). -/
theorem splitWord_joinFields {enc : Config.Enc} {f : Fields} (hf : f.wellFormed enc = true) :
    splitWord enc (joinFields f) = .ok f := by
  cases f with
  | rType opcode rd rs rt funct =>
    have hl : layoutOf enc opcode = some .rType := beq_iff_eq.mp hf
    simp [splitWord, hl]
  | iType opcode rt imm =>
    have hr : 0x2 ≤ opcode.toNat ∧ opcode.toNat ≤ 0x8 := by simpa [Fields.wellFormed] using hf
    have hl : layoutOf enc opcode = some .iType := if_pos hr
    simp [splitWord, hl]
  | jType opcode offset =>
    have hr : 0x9 ≤ opcode.toNat ∧ opcode.toNat ≤ 0xD := by simpa [Fields.wellFormed] using hf
    have hl : layoutOf enc opcode = some .jType := by rw [layoutOf, if_neg (by omega), if_pos hr]
    simp [splitWord, hl]
  | eType subcode rs rt unused => simp [splitWord, layoutOf_eType]

section
variable {enc : Config.Enc}

theorem rFields_wellFormed (h : enc.wellFormed = true) (o : ROp) (rd rs rt : Reg) :
    (rFields enc o rd rs rt).wellFormed enc = true :=
  beq_iff_eq.mpr (layoutOf_rOp h o)

theorem iFields_wellFormed (h : enc.wellFormed = true) (o : IOp) (rt : Reg) (imm8 : Byte) :
    (iFields enc o rt imm8).wellFormed enc = true := by
  simpa [iFields, Fields.wellFormed] using (Config.Enc.legal h).iOpcode o

theorem jFields_wellFormed (h : enc.wellFormed = true) (o : JOp) (delta : Word) :
    (jFields enc o delta).wellFormed enc = true := by
  simpa [jFields, Fields.wellFormed] using (Config.Enc.legal h).jOpcode o

/-- Under a legal `ENC` the numbers of every instruction select the layout of its field tuple (rule R56). -/
theorem fieldsOf_wellFormed (h : enc.wellFormed = true) (i : Instr) : (fieldsOf enc i).wellFormed enc = true := by
  cases i with
  | add | sub | and | or | xor | not | shl | shr | ldr | str | cmp | ret | push | pop =>
    exact rFields_wellFormed h ..
  | ld | st | addi | andi | ori | lui | cmpi => exact iFields_wellFormed h ..
  | call | jmp | jz | jnz | jgt => exact jFields_wellFormed h ..
  | nop | mfs | mts | sysall | halt => rfl

/-- The instruction decoder undoes `fieldsOf`: a legal `ENC` looks each number up again, and the operands
that a field can hold come back from their fields (rules R68, R72). -/
theorem decodeFields_fieldsOf (h : enc.wellFormed = true) {i : Instr} (hi : i.wellFormed = true) :
    decodeFields enc (fieldsOf enc i) = .ok i := by
  cases i with
  | add | sub | and | or | xor | not | shl | shr | ldr | str | cmp | ret | push | pop =>
    simp only [fieldsOf, rFields, decodeFields, findROp_code h]
  | ld | st | addi | andi | ori | lui | cmpi =>
    simp only [fieldsOf, iFields, decodeFields, findIOp_code h, imm8Of_setWidth]
  | call | jmp | jz | jnz | jgt =>
    simp only [fieldsOf, jFields, decodeFields, findJOp_code h, sext12_offsetOf hi]
  | nop | mfs | mts | sysall | halt =>
    simp only [fieldsOf, eFields, decodeFields, findEOp_code h, findSpecial_code h]

theorem decode_encode (h : enc.wellFormed = true) {i : Instr} (hi : i.wellFormed = true) :
    decode enc (encode enc i) = .ok i := by
  rw [decode, encode, splitWord_joinFields (fieldsOf_wellFormed h i)]
  exact decodeFields_fieldsOf h hi

end

/-- Settles O1: the word codec gives the field tuple back, and the decoder its instruction. -/
theorem decodeEncodeRoundTrip : Obligations.DecodeEncodeRoundTrip := by
  unfold Obligations.DecodeEncodeRoundTrip
  intro enc i h hi
  exact decode_encode h hi

end Sys2Proof

namespace Sys2Proof.Machine

/-! ## What the handlers raise, and what a step does to the control state (rules R162, R170) -/

/-- Where a handler's condition to fault holds, the instruction latches that fault and does nothing else
(rules R162, R170). -/
theorem exec_of_handlerFault {i : Instr} {s : State} {f : Fault} (h : handlerFault s i = some f) :
    exec i s = .next (s.latch f) := by
  cases i with
  | ldr rd rs =>
    obtain ⟨hc, ⟨⟩⟩ := Option.ite_none_right_eq_some.mp h
    simp only [exec, execLdr, indirectAddress_eq_top.mpr hc, State.readWord_top]
    rfl
  | str rd rs =>
    obtain ⟨hc, ⟨⟩⟩ := Option.ite_none_right_eq_some.mp h
    simp only [exec, execStr, indirectAddress_eq_top.mpr hc, State.writeWord_top]
    rfl
  | push rs =>
    obtain ⟨hs, ⟨⟩⟩ := Option.ite_none_right_eq_some.mp h
    simp only [exec, execPush, State.pushWord_overflow _ _ hs]
    rfl
  | call d =>
    obtain ⟨hs, ⟨⟩⟩ := Option.ite_none_right_eq_some.mp h
    simp only [exec, execCall, State.pushWord_overflow _ _ hs]
    rfl
  | pop rd =>
    obtain ⟨hs, ⟨⟩⟩ := Option.ite_none_right_eq_some.mp h
    simp only [exec, execPop, State.popInto_overflow _ _ hs]
    rfl
  | ret =>
    obtain ⟨hs, ⟨⟩⟩ := Option.ite_none_right_eq_some.mp h
    simp only [exec, execRet, State.popInto_overflow _ _ hs]
    rfl
  | sysall => cases h; rfl
  | add | sub | and | or | xor | not | shl | shr | cmp | ld | st | addi | andi | ori | lui | cmpi
  | jmp | jz | jnz | jgt | nop | mfs | mts | halt => cases h

/-- Where no handler's condition to fault holds, the instruction keeps the control state. -/
theorem exec_controlKept {i : Instr} {s t : State} (hn : handlerFault s i = none) (h : exec i s = .next t) :
    ControlKept i s t := by
  -- Every way to latch a fault that `exec_next_cases` lists meets its handler's condition.
  rcases exec_next_cases h with hk | ⟨rfl, -⟩ | ⟨-, hc, rd, rs, hr, rfl | rfl⟩ |
    ⟨-, ⟨hs, ⟨rs, rfl⟩ | ⟨d, rfl⟩⟩ | ⟨hs, ⟨rd, rfl⟩ | rfl⟩⟩
  · exact hk
  all_goals simp_all [handlerFault]

/-- What an instruction leaves in the latch: its handler's fault, or what was there. -/
theorem exec_fault {i : Instr} {s t : State} (h : exec i s = .next t) :
    t.fault = (handlerFault s i).or s.fault := by
  rcases hf : handlerFault s i with _ | f
  · exact (exec_controlKept hf h).1
  · rw [exec_of_handlerFault hf] at h
    cases h; rfl

/-- The rest of the control state: only Halt writes any of it. -/
theorem exec_control {i : Instr} {s t : State} (h : exec i s = .next t) :
    t.programStart = s.programStart ∧ t.programEnd = s.programEnd ∧ t.params = s.params ∧
      (t.halted = s.halted ∨ (i = .halt ∧ t.halted = true)) := by
  rcases hf : handlerFault s i with _ | f
  · obtain ⟨-, hlo, hhi, hp, hh, -⟩ := exec_controlKept hf h
    exact ⟨hlo, hhi, hp, hh.imp_right fun ⟨hi, ht⟩ => ⟨hi, ht ▸ rfl⟩⟩
  · rw [exec_of_handlerFault hf] at h
    cases h
    exact ⟨rfl, rfl, rfl, .inl rfl⟩

/-- A handler's condition to fault does not read pc (rule R162). -/
theorem handlerFault_setPc (s : State) (v : Word) (i : Instr) : handlerFault (s.setPc v) i = handlerFault s i := by
  cases i <;> rfl

/-- On a machine that fetches the word `w`, the step raises exactly when `w` is no instruction or its handler
faults (rule R162). -/
theorem raises_iff_of_fetches {s : State} {w : Word} (hw : Fetches s w) :
    Raises s ↔ (∃ e, decode s.params.enc w = .error e) ∨
      ∃ i, decode s.params.enc w = .ok i ∧ handlerFault s i ≠ none := by
  have ⟨hf, hh, hin, hpc, hword⟩ := hw
  constructor
  · rintro ⟨-, -, hout | htop | ⟨w', ⟨-, -, -, -, hword'⟩, hc⟩⟩
    · exact absurd hout hin
    · exact absurd htop hpc
    · rwa [← hword.symm.trans hword'] at hc
  · exact fun hc => ⟨hf, hh, .inr (.inr ⟨w, hw, hc⟩)⟩

/-- No step writes the program interval or the parameters; a step sets `halted` only by Halt (rules R20,
R21). -/
theorem step_control {s t : State} (h : step s = .next t) :
    t.programStart = s.programStart ∧ t.programEnd = s.programEnd ∧ t.params = s.params ∧
      (t.halted = s.halted ∨
        (t.halted = true ∧ ∃ w, Fetches s w ∧ decode s.params.enc w = .ok .halt)) := by
  obtain ⟨-, ⟨-, rfl⟩ | ⟨-, ⟨-, rfl⟩ | ⟨-, -, rfl⟩ | ⟨w, hw, ⟨e, -, rfl⟩ | ⟨i, hi, he⟩⟩⟩⟩ := step_next_cases h
  case inr.inr.inr.inr =>
    obtain ⟨hlo, hhi, hp, hh⟩ := exec_control he
    exact ⟨hlo, hhi, hp, hh.imp_right fun ⟨hhalt, ht⟩ => ⟨ht, w, hw, hhalt ▸ hi⟩⟩
  all_goals exact ⟨rfl, rfl, rfl, .inl rfl⟩

/-- A step changes the latch exactly when it raises a fault (rules R22, R162). -/
theorem step_fault_ne_iff {s t : State} (h : step s = .next t) : t.fault ≠ s.fault ↔ Raises s := by
  obtain ⟨hf, ⟨hh, rfl⟩ | ⟨hh, ⟨ho, rfl⟩ | ⟨-, hpc, rfl⟩ | ⟨w, hw, hd⟩⟩⟩ := step_next_cases h
  · exact iff_of_false (· rfl) fun hr => absurd (hh.symm.trans hr.2.1) (by decide)
  · exact iff_of_true (by simp [hf]) ⟨hf, hh, .inl ho⟩
  · exact iff_of_true (by simp [hf]) ⟨hf, hh, .inr (.inl hpc)⟩
  · rw [raises_iff_of_fetches hw]
    rcases hd with ⟨e, he, rfl⟩ | ⟨i, hi, hex⟩
    · exact iff_of_true (by simp [hf]) (.inl ⟨e, he⟩)
    · have hlatch := exec_fault hex
      rw [handlerFault_setPc, State.setPc_fault, hf, Option.or_none] at hlatch
      simp [hlatch, hf, hi]

/-- Settles O55: the control-state frame of a step, and its latch. -/
theorem controlStateWriters : Obligations.ControlStateWriters := by
  unfold Obligations.ControlStateWriters
  intro s t h
  obtain ⟨hlo, hhi, hp, hh⟩ := step_control h
  refine ⟨hlo, hhi, hp, fun hs => ?_, fun hs ht => ?_, step_fault_ne_iff h⟩
  · rcases hh with hh | ⟨hh, -⟩
    · exact hh.trans hs
    · exact hh
  · rcases hh with hh | ⟨-, hw⟩
    · exact absurd (hs.symm.trans (hh.symm.trans ht)) (by decide)
    · exact hw

/-! ## Two machines that differ in their parameters alone (rule R6) -/

/-- The same state on a machine with the parameters `p`. -/
def State.withParams (s : State) (p : Config.Params) : State := { s with params := p }

section
variable (s : State) (p : Config.Params)

@[simp] theorem State.withParams_sp : (s.withParams p).sp = s.sp := rfl

@[simp] theorem State.withParams_reg (r : Reg) : (s.withParams p).reg r = s.reg r := rfl

@[simp] theorem State.withParams_readWord (a : Word) : (s.withParams p).readWord a = s.readWord a := rfl

theorem State.writeWord_withParams (a v : Word) :
    (s.withParams p).writeWord a v = (s.writeWord a v).map (·.withParams p) := by
  unfold State.writeWord
  split <;> rfl

theorem State.pushWord_withParams (v : Word) :
    (s.withParams p).pushWord v = (s.pushWord v).map (·.withParams p) := by
  unfold State.pushWord
  rw [State.withParams_sp]
  split
  · rfl
  · exact State.writeWord_withParams (s.setSp (s.sp - 2)) p _ v

theorem State.set_withParams (r : LReg) (v : Word) : (s.withParams p).set r v = (s.set r v).withParams p := by
  rcases r with r | (_ | _ | _) <;> rfl

theorem State.popInto_withParams (r : LReg) :
    (s.withParams p).popInto r = (s.popInto r).map (·.withParams p) := by
  unfold State.popInto
  rw [State.withParams_sp, State.withParams_readWord]
  split
  · rfl
  · cases s.readWord s.sp with
    | error f => rfl
    | ok v => exact congrArg Except.ok (State.set_withParams (s.setSp (s.sp + 2)) p r v)

theorem State.jumpIf_withParams (taken : Bool) (d : Word) :
    (s.withParams p).jumpIf taken d = (s.jumpIf taken d).withParams p := by
  cases taken <;> rfl

end

/-- The end of a handler whose result commutes with setting the parameters. -/
theorem finish_withParams {s t : State} {r : Except Fault State} (p : Config.Params) (h : finish s r = .next t) :
    finish (s.withParams p) (r.map (·.withParams p)) = .next (t.withParams p) := by
  cases r <;> cases h <;> rfl

/-- An instruction that does not read the parameters does the same under all of them (rules R119, R134). -/
theorem exec_withParams {i : Instr} {s t : State} (p : Config.Params) (hi : readsParams i = false)
    (h : exec i s = .next t) : exec i (s.withParams p) = .next (t.withParams p) := by
  cases i with
  | ldr | str | ori => cases hi
  | ret =>
    simp only [exec, execRet, State.popInto_withParams]
    exact finish_withParams p h
  | pop rd =>
    simp only [exec, execPop, State.popInto_withParams]
    exact finish_withParams p h
  | push rs =>
    simp only [exec, execPush, State.pushWord_withParams]
    exact finish_withParams p h
  | call d =>
    have jumps (r : Except Fault State) :
        (r.map (·.withParams p)).map (fun t => t.setPc (jumpTarget t d)) =
          (r.map fun t => t.setPc (jumpTarget t d)).map (·.withParams p) := by
      cases r <;> rfl
    simp only [exec, execCall, State.pushWord_withParams, jumps]
    exact finish_withParams p h
  | ld rt imm8 =>
    have ha := literalAddress_ne_top imm8
    simp only [exec, execLd, State.withParams_readWord, State.readWord_ok s ha] at h ⊢
    cases h; rfl
  | st rt imm8 =>
    simp only [exec, execSt, State.writeWord_withParams]
    exact finish_withParams p h
  | jmp | jz | jnz | jgt =>
    cases h
    exact congrArg Host.Outcome.next (State.jumpIf_withParams s p _ _)
  | mts sel rt =>
    cases h
    exact congrArg Host.Outcome.next (State.set_withParams s p _ _)
  | add | sub | and | or | xor | not | shl | shr | cmp | addi | andi | lui | cmpi | nop | mfs | sysall | halt =>
    cases h; rfl

/-- Settles O56: the operations of the other instructions commute with setting the parameters. -/
theorem parametersReachThreeInstructions : Obligations.ParametersReachThreeInstructions := by
  unfold Obligations.ParametersReachThreeInstructions
  intro i s t p hi h
  exact exec_withParams p hi h

/-! ## The first step after a LOAD (rules R193, R195) -/

@[simp] theorem programBytes_cons (w : Word) (rest : List Word) :
    programBytes (w :: rest) = lowByte w :: highByte w :: programBytes rest := rfl

theorem programBytes_length (words : List Word) : (programBytes words).length = 2 * words.length := by
  induction words with
  | nil => rfl
  | cons w rest ih => simp only [programBytes_cons, List.length_cons, ih]; omega

/-- A step that fetches the word of an instruction runs it, pc advanced (rules R83 to R86). -/
theorem step_of_fetches {s : State} {w : Word} {i : Instr} (hw : Fetches s w)
    (hd : decode s.params.enc w = .ok i) : step s = exec i (s.setPc (s.pc + 2)) := by
  obtain ⟨hf, hh, hin, hpc, rfl⟩ := hw
  rw [step_running hf hh, fetch_inside hin hpc]
  simp only [hd]

/-- Everything a LOAD that completes does (rule R192). -/
theorem State.load_spec (s : State) (bytes : List Byte) (a : Word) (h : a.toNat + bytes.length ≤ 0xFFFF) :
    ∃ t, s.load bytes a = .next t ∧
      t = { s with programStart := a, programEnd := a + BitVec.ofNat 16 bytes.length, pc := a, sp := 0xFFFE,
                   halted := false, fault := none, mem := t.mem } ∧
      ∀ x : Word, t.readByte x =
        if a.toNat ≤ x.toNat then (bytes[x.toNat - a.toNat]?).getD (s.readByte x) else s.readByte x :=
  ⟨_, State.load_ok s bytes a h, State.writeBytes_frame .., fun x => State.writeBytes_read bytes _ a h x⟩

/-- After a LOAD of a program image the fetch at the start address reads the image's first word. -/
theorem fetches_of_load {s t : State} {w : Word} {rest : List Word} {a : Word}
    (hfit : a.toNat + 2 * (rest.length + 1) ≤ 0xFFFF) (h : s.load (programBytes (w :: rest)) a = .next t) :
    Fetches t w ∧ t.pc = a ∧ t.params = s.params := by
  have hlen : (programBytes (w :: rest)).length = 2 * (rest.length + 1) := programBytes_length _
  obtain ⟨t', ht', hframe, hread⟩ := State.load_spec s (programBytes (w :: rest)) a (by omega)
  obtain rfl : t = t' := Host.Outcome.next.inj (h.symm.trans ht')
  have hpc : t.pc = a := congrArg State.pc hframe
  have hlo : t.programStart = a := congrArg State.programStart hframe
  have hhi : t.programEnd.toNat = a.toNat + 2 * (rest.length + 1) := by
    rw [congrArg State.programEnd hframe, hlen, BitVec.toNat_add, BitVec.toNat_ofNat]
    omega
  have hnext : (a + 1).toNat = a.toNat + 1 := by simp [BitVec.toNat_add]; omega
  refine ⟨⟨congrArg State.fault hframe, congrArg State.halted hframe, ?_, ?_, ?_⟩, hpc,
    (congrArg State.params hframe :)⟩
  · rw [OutsideProgram, hpc, hlo, hhi]
    omega
  · rw [hpc]
    rintro rfl
    simp at hfit
  · rw [hpc, hread, hread, hnext]
    simp

/-- Settles O60: the first fetch after the LOAD reads the encoded instruction, which decodes to itself. -/
theorem firstStepAfterLoad : Obligations.FirstStepAfterLoad := by
  unfold Obligations.FirstStepAfterLoad
  intro s i rest a henc hi hfit
  have hbytes : a.toNat + (programBytes (encode s.params.enc i :: rest)).length ≤ 0xFFFF := by
    rw [programBytes_length]; exact hfit
  obtain ⟨t, hload, -⟩ := State.load_spec s _ a hbytes
  obtain ⟨hw, hpc, hparams⟩ := fetches_of_load hfit hload
  refine ⟨t, hload, ?_⟩
  rw [step_of_fetches hw (by rw [hparams]; exact decode_encode henc hi), hpc]
  rfl

end Sys2Proof.Machine

/-! # Proofs of the state family: the registers, the special registers, which instruction writes what, LOAD, and
the machine before its first LOAD -/

namespace Sys2Proof

/-! ## E-type words and selectors (rules R19, R55, R62) -/

/-- A word with opcode nibble 0xF splits as an E-type word under every `ENC` (rules R55, R56). -/
theorem splitWord_of_eType {enc : Config.Enc} {w : Word} (h : w.extractLsb' 12 4 = 0xF#4) :
    splitWord enc w =
      .ok (.eType (w.extractLsb' 8 4) (w.extractLsb' 5 3) (w.extractLsb' 2 3) (w.extractLsb' 0 2)) := by
  simp only [splitWord, h, layoutOf_eType]

/-- The selector table of the spec's `ENC` (rule R19). -/
theorem findSpecial_spec (sel : BitVec 3) : findSpecial .spec sel =
    if sel = 0#3 then some .pc else if sel = 1#3 then some .sp else if sel = 2#3 then some .flags else none := by
  revert sel; decide

end Sys2Proof

namespace Sys2Proof.Machine

/-! ## Registers (rules R11, R12) -/

/-- Settles O8, by the read-after-write rule of the registers. -/
theorem registerReadAfterWrite : Obligations.RegisterReadAfterWrite := by
  unfold Obligations.RegisterReadAfterWrite
  refine ⟨fun s v => ⟨s.reg_zero, State.reg_zero _, s.setReg_zero v⟩, fun s r v hr => ⟨?_, fun q hq => ?_⟩⟩
  · rw [State.reg_setReg, if_pos ⟨rfl, hr⟩]
  · rw [State.reg_setReg, if_neg fun ⟨hqr, _⟩ => hq hqr]

/-! ## MoveToSpecial and the packed flags (rules R17, R18, R152) -/

/-- Each bit of `FLAGS16`: the flags whose mask has that bit (rule R17). -/
theorem packFlags_getElem (f : Flags) (i : Nat) (h : i < 16) :
    (packFlags f)[i] =
      (f.z && (1#16)[i] || f.c && (2#16)[i] || f.n && (4#16)[i] || f.v && (8#16)[i]) := by
  have masked (b : Bool) (m : Word) : (if b then m else 0#16)[i] = (b && m[i]) := by cases b <;> simp
  simp only [packFlags, BitVec.getElem_or, masked]

/-- Unpacking and packing again keeps the low four bits and clears the others (rules R17, R18). -/
theorem packFlags_unpackFlags (v : Word) : packFlags (unpackFlags v) = v &&& 0x000F := by
  ext i h
  rw [packFlags_getElem]
  interval_cases i <;> simp [unpackFlags]

/-- Settles O37: the selector table at decode, the three writes by definition, and the read-back of FLAGS. -/
theorem moveToSpecialWrites : Obligations.MoveToSpecialWrites := by
  unfold Obligations.MoveToSpecialWrites
  refine ⟨fun w hop hsub => ?_, fun rt s => ⟨rfl, rfl, rfl, _, _, rfl, rfl, ?_⟩⟩
  · have hmts : findEOp .spec 0x2#4 = some .mts := findEOp_code Config.Enc.spec_wellFormed .mts
    simp only [decode, splitWord_of_eType hop, decodeFields, hsub, hmts, findSpecial_spec]
    split_ifs <;> rfl
  · simp [packFlags_unpackFlags]

/-! ## Which instruction writes what (rules R12, R14 to R16) -/

/-- From `s` to `t` the flags, pc, sp and the general registers change only where `i` is listed as their
writer. -/
structure OnlyListedWritten (i : Instr) (s t : State) : Prop where
  flags : writesFlags i = false → t.flags = s.flags
  pc : writesPc i = false → t.pc = s.pc
  sp : writesSp i = false → t.sp = s.sp
  reg : ∀ q : Reg, destination i ≠ some q → t.reg q = s.reg q

namespace OnlyListedWritten

variable {i : Instr} {s t u : State}

theorem refl : OnlyListedWritten i s s := ⟨fun _ => rfl, fun _ => rfl, fun _ => rfl, fun _ _ => rfl⟩

theorem trans (h : OnlyListedWritten i s t) (h' : OnlyListedWritten i t u) : OnlyListedWritten i s u :=
  ⟨fun hi => (h'.flags hi).trans (h.flags hi), fun hi => (h'.pc hi).trans (h.pc hi),
    fun hi => (h'.sp hi).trans (h.sp hi), fun q hq => (h'.reg q hq).trans (h.reg q hq)⟩

theorem setReg {r : Reg} {v : Word} (hi : destination i = some r) : OnlyListedWritten i s (s.setReg r v) where
  flags _ := rfl
  pc _ := rfl
  sp _ := rfl
  reg q hq := by rw [State.reg_setReg, if_neg fun ⟨hqr, _⟩ => hq (hqr ▸ hi)]

theorem setFlags {f : Flags} (hi : writesFlags i = true) : OnlyListedWritten i s (s.setFlags f) :=
  ⟨fun hn => absurd (hi.symm.trans hn) (by decide), fun _ => rfl, fun _ => rfl, fun _ _ => rfl⟩

theorem setPc {v : Word} (hi : writesPc i = true) : OnlyListedWritten i s (s.setPc v) :=
  ⟨fun _ => rfl, fun hn => absurd (hi.symm.trans hn) (by decide), fun _ => rfl, fun _ _ => rfl⟩

theorem setSp {v : Word} (hi : writesSp i = true) : OnlyListedWritten i s (s.setSp v) :=
  ⟨fun _ => rfl, fun _ => rfl, fun hn => absurd (hi.symm.trans hn) (by decide), fun _ _ => rfl⟩

theorem setHalted : OnlyListedWritten i s s.setHalted :=
  ⟨fun _ => rfl, fun _ => rfl, fun _ => rfl, fun _ _ => rfl⟩

theorem latch {f : Fault} : OnlyListedWritten i s (s.latch f) :=
  ⟨fun _ => rfl, fun _ => rfl, fun _ => rfl, fun _ _ => rfl⟩

theorem writeResult {rd : Reg} {r : Word × Flags} (hf : writesFlags i = true) (hd : destination i = some rd) :
    OnlyListedWritten i s (s.writeResult rd r) :=
  (setFlags hf).trans (setReg hd)

theorem jumpIf {taken : Bool} {d : Word} (hi : writesPc i = true) : OnlyListedWritten i s (s.jumpIf taken d) := by
  cases taken with
  | false => exact refl
  | true => exact setPc hi

theorem writeWord {a v : Word} (h : s.writeWord a v = .ok t) : OnlyListedWritten i s t := by
  obtain ⟨-, -, ht, -⟩ := State.writeWord_spec h
  rw [ht]
  exact ⟨fun _ => rfl, fun _ => rfl, fun _ => rfl, fun _ _ => rfl⟩

theorem pushWord {v : Word} (hi : writesSp i = true) (h : s.pushWord v = .ok t) : OnlyListedWritten i s t := by
  obtain ⟨hs, -⟩ := State.pushWord_spec h
  rw [State.pushWord_ok s v hs] at h
  exact (setSp hi).trans (writeWord h)

/-- A pop moves sp, then writes its destination. -/
theorem popInto {dst : LReg} (hi : writesSp i = true)
    (hdst : ∀ (u : State) (v : Word), OnlyListedWritten i u (u.set dst v)) (h : s.popInto dst = .ok t) :
    OnlyListedWritten i s t := by
  by_cases hs : s.sp = 0xFFFF#16
  · rw [State.popInto_overflow s dst hs] at h; cases h
  · rw [State.popInto_ok s dst hs] at h
    cases h
    exact (setSp hi).trans (hdst _ _)

/-- A handler that faults writes the latch alone, so only its completed result is left to consider. -/
theorem finish {r : Except Fault State} (h : finish s r = .next t) (hok : r = .ok t → OnlyListedWritten i s t) :
    OnlyListedWritten i s t := by
  cases r with
  | error f => cases h; exact latch
  | ok u => cases h; exact hok rfl

end OnlyListedWritten

/-- Every instruction, faulting or not, writes only what it is listed for (rules R12, R14 to R16, R64). -/
theorem exec_onlyListedWritten {i : Instr} {s t : State} (h : exec i s = .next t) : OnlyListedWritten i s t := by
  cases i with
  | add | sub | and | or | xor | not | shl | shr | addi | andi | ori => cases h; exact .writeResult rfl rfl
  | cmp | cmpi => cases h; exact .setFlags rfl
  | lui | mfs => cases h; exact .setReg rfl
  | ldr rd rs =>
    simp only [exec, execLdr] at h
    split at h <;> cases h
    · exact .setReg rfl
    · exact .latch
  | ld rt imm8 =>
    simp only [exec, execLd, State.readWord_ok s (literalAddress_ne_top imm8)] at h
    cases h; exact .setReg rfl
  | str | st => exact .finish h .writeWord
  | push => exact .finish h (.pushWord rfl)
  | pop => exact .finish h (.popInto rfl fun _ _ => .setReg rfl)
  | ret => exact .finish h (.popInto rfl fun _ _ => .setPc rfl)
  | call d =>
    refine .finish h fun hok => ?_
    cases hp : s.pushWord s.pc with
    | error f => rw [hp] at hok; cases hok
    | ok u => rw [hp] at hok; cases hok; exact (OnlyListedWritten.pushWord rfl hp).trans (.setPc rfl)
  | jmp | jz | jnz | jgt => cases h; exact .jumpIf rfl
  | mts sel rt =>
    cases h
    cases sel with
    | pc => exact .setPc rfl
    | sp => exact .setSp rfl
    | flags => exact .setFlags rfl
  | nop => cases h; exact .refl
  | sysall => cases h; exact .latch
  | halt => cases h; exact .setHalted

/-- Settles O53, by the frame of every instruction. -/
theorem onlyListedInstructionsWriteRegisters : Obligations.OnlyListedInstructionsWriteRegisters := by
  unfold Obligations.OnlyListedInstructionsWriteRegisters
  intro i s t h
  obtain ⟨-, hpc, hsp, hreg⟩ := exec_onlyListedWritten h
  exact ⟨hpc, hsp, hreg⟩

theorem shiftAmount_eq_mod (s : State) (rt : Reg) : shiftAmount s rt = (s.reg rt).toNat % 16 :=
  (BitVec.toNat_and ..).trans (Nat.and_two_pow_sub_one_eq_mod _ 4)

theorem shiftLeftWithFlags_zero (v : Word) (f : Flags) : shiftLeftWithFlags v 0 f = (v, f) := rfl

theorem shiftRightWithFlags_zero (v : Word) (f : Flags) : shiftRightWithFlags v 0 f = (v, f) := rfl

/-- Settles O52: the frame of every instruction, and the shift amount 0, which hands the old flags back. -/
theorem onlyListedInstructionsWriteFlags : Obligations.OnlyListedInstructionsWriteFlags := by
  unfold Obligations.OnlyListedInstructionsWriteFlags
  refine ⟨fun i s t h => (exec_onlyListedWritten h).flags, fun rd rs rt s t hzero h => ?_⟩
  have hamount : shiftAmount s rt = 0 := (shiftAmount_eq_mod s rt).trans hzero
  rcases h with h | h
  · simp only [exec, execShl, hamount, shiftLeftWithFlags_zero] at h
    cases h; rfl
  · simp only [exec, execShr, hamount, shiftRightWithFlags_zero] at h
    cases h; rfl

/-! ## LOAD (rules R26, R192) -/

/-- Settles O59, by everything a LOAD does: its frame, and what each address reads as. -/
theorem loadSetsUpTheRun : Obligations.LoadSetsUpTheRun := by
  unfold Obligations.LoadSetsUpTheRun
  refine ⟨State.load_refused, fun s bytes a hfit => ?_⟩
  obtain ⟨t, hload, hframe, hread⟩ := State.load_spec s bytes a hfit
  have hend : t.programEnd.toNat = a.toNat + bytes.length := by
    rw [congrArg State.programEnd hframe, BitVec.toNat_add, BitVec.toNat_ofNat]
    omega
  have hloaded (k : Nat) (hk : k < bytes.length) : t.readByte (a + BitVec.ofNat 16 k) = bytes[k] := by
    have haddr : (a + BitVec.ofNat 16 k).toNat = a.toNat + k := by
      rw [BitVec.toNat_add, BitVec.toNat_ofNat]
      omega
    rw [hread, haddr, if_pos (Nat.le_add_right ..), Nat.add_sub_cancel_left, List.getElem?_eq_getElem hk]
    rfl
  have hother (b : Word) (hb : b.toNat < a.toNat ∨ a.toNat + bytes.length ≤ b.toNat) :
      t.readByte b = s.readByte b := by
    rw [hread]
    split
    · rw [List.getElem?_eq_none (by omega)]; rfl
    · rfl
  exact ⟨t, hload, congrArg State.programStart hframe, hend, congrArg State.pc hframe, congrArg State.sp hframe,
    congrArg State.halted hframe, congrArg State.fault hframe, fun q => (congrArg (·.reg q) hframe :),
    (congrArg State.flags hframe :), (congrArg State.params hframe :), hloaded, hother⟩

/-! ## STEP outside the program interval and on a faulted machine (rules R25, R81, R82) -/

/-- A faulted machine's STEP reports the latched fault and changes nothing (rule R81). -/
theorem stepTransaction_faulted {s : State} {f : Fault} (h : s.fault = some f) :
    stepTransaction s = some (.fault f, s) := by
  rw [stepTransaction, step_faulted h]

/-- A running machine's STEP outside the program interval reports the violation and latches it (rule R82). -/
theorem stepTransaction_outside {s : State} (hf : s.fault = none) (hh : s.halted = false)
    (ho : OutsideProgram s) :
    stepTransaction s =
      some (.fault (.programBoundsViolation s.pc (instructionEnd s.pc) s.programStart s.programEnd),
        s.latch (.programBoundsViolation s.pc (instructionEnd s.pc) s.programStart s.programEnd)) := by
  rw [stepTransaction, step_running hf hh, fetch_outside ho, hh]
  rfl

/-- The program interval at power-on is empty (rule R25). -/
theorem powerOn_outsideProgram (p : Config.Params) (m : Memory) : OutsideProgram (State.powerOn p m) :=
  .inr (show 0 < 2 by decide)

/-- Settles O58: power-on stands outside its empty program interval, and the fault stays latched. -/
theorem stepBeforeLoadFaults : Obligations.StepBeforeLoadFaults := by
  unfold Obligations.StepBeforeLoadFaults
  intro p m
  exact ⟨_, stepTransaction_outside rfl rfl (powerOn_outsideProgram p m), rfl, stepTransaction_faulted rfl⟩

end Sys2Proof.Machine

/-! # Proofs of the memory family: words in memory and their byte order, the canonical form, which instruction
writes memory, and the invariant of the machine -/

namespace Sys2Proof

/-! ## Words as numbers (rules R35, R37) -/

theorem wordOfBytes_eq_ofNat (lo hi : Byte) : wordOfBytes lo hi = BitVec.ofNat 16 (lo.toNat + 256 * hi.toNat) := by
  have hlo := lo.isLt
  have hhi := hi.isLt
  have hor : lo.toNat ||| 2 ^ 8 * hi.toNat = 2 ^ 8 * hi.toNat + lo.toNat := by
    rw [Nat.or_comm, Nat.two_pow_add_eq_or_of_lt hlo]
  apply BitVec.eq_of_toNat_eq
  simp only [wordOfBytes, BitVec.toNat_or, BitVec.toNat_shiftLeft, BitVec.toNat_setWidth, BitVec.toNat_ofNat,
    Nat.shiftLeft_eq]
  rw [Nat.mod_eq_of_lt (by omega : lo.toNat < 2 ^ 16), Nat.mod_eq_of_lt (by omega : hi.toNat < 2 ^ 16),
    Nat.mod_eq_of_lt (by omega : hi.toNat * 2 ^ 8 < 2 ^ 16), Nat.mul_comm, hor]
  omega

theorem highByte_toNat (w : Word) : (highByte w).toNat = w.toNat / 256 := by
  have := w.isLt
  rw [highByte, BitVec.extractLsb'_toNat, Nat.shiftRight_eq_div_pow]
  omega

end Sys2Proof

namespace Sys2Proof.Machine

/-! ## Words in memory (rules R35 to R37, R46) -/

theorem State.readWord_eq_wordAt (s : State) {a : Word} (h : a ≠ 0xFFFF#16) : s.readWord a = .ok (wordAt s a) := by
  rw [State.readWord_ok s h, wordOfBytes_eq_ofNat, wordAt]

theorem State.writeWord_completes (s : State) {a : Word} (v : Word) (h : a ≠ 0xFFFF#16) :
    ∃ t, s.writeWord a v = .ok t :=
  ⟨_, State.writeWord_ok s v h⟩

/-- Settles O9, by the word read and the word write below 0xFFFF and at it. -/
theorem wordAccessIsLittleEndian : Obligations.WordAccessIsLittleEndian := by
  unfold Obligations.WordAccessIsLittleEndian
  refine ⟨fun s a ha => s.readWord_eq_wordAt ha, State.readWord_top, fun s a v ha => ?_, State.writeWord_top⟩
  obtain ⟨t, ht⟩ := s.writeWord_completes v ha
  obtain ⟨-, hstored, hframe, -⟩ := State.writeWord_spec ht
  exact ⟨t, ht, hstored, hframe⟩

/-! What the bytes around a stored word read as. -/

section
variable {a v : Word} {s t : State}

theorem WordStored.low (h : WordStored a v s t) : t.readByte a = lowByte v := by
  rw [h a, if_pos rfl, lowByte]

theorem WordStored.high (h : WordStored a v s t) : t.readByte (a + 1) = highByte v := by
  rw [h (a + 1), if_neg (by simp), if_pos rfl, highByte]

theorem WordStored.other (h : WordStored a v s t) {b : Word} (hlow : b ≠ a) (hhigh : b ≠ a + 1) :
    t.readByte b = s.readByte b := by
  rw [h b, if_neg hlow, if_neg hhigh]

end

/-- Settles O10: the byte at `a + 1` is the high byte stored, and the byte at `a + 2` is not written. -/
theorem overlappingWordAccess : Obligations.OverlappingWordAccess := by
  unfold Obligations.OverlappingWordAccess
  intro s t a v h htop
  obtain ⟨-, hstored, -⟩ := State.writeWord_spec h
  have habove : t.readByte (a + 2) = s.readByte (a + 2) :=
    hstored.other (by simp) (by simp)
  have hnext : a + 1 + 1 = a + 2 := BitVec.add_assoc a 1 1
  rw [t.readWord_eq_wordAt htop, wordAt, hnext, hstored.high, habove, highByte_toNat]

/-- Settles O48: the two bytes that the fetch joins are those of the stored word. -/
theorem fetchSeesTheLastStore : Obligations.FetchSeesTheLastStore := by
  unfold Obligations.FetchSeesTheLastStore
  intro s t v h hin
  obtain ⟨hpc, hstored, hframe, -⟩ := State.writeWord_spec h
  have hsame : t.pc = s.pc := (congrArg State.pc hframe :)
  rw [fetch_inside hin (hsame ▸ hpc), hsame, hstored.low, hstored.high, wordOfBytes_lowByte_highByte, ← hsame]
  rfl

/-! ## The canonical form of memory (rules R30, R33) -/

theorem Memory.wfFrom_cons {low k : Nat} {b : Byte} {rest : Memory} :
    Memory.wfFrom low ((k, b) :: rest) = true ↔
      low ≤ k ∧ k < 0x10000 ∧ b ≠ Memory.unlisted k ∧ Memory.wfFrom (k + 1) rest = true := by
  simp [Memory.wfFrom, and_assoc]

theorem Memory.read_cons_self (k : Nat) (b : Byte) (rest : Memory) : Memory.read ((k, b) :: rest) k = b :=
  if_pos rfl

theorem Memory.read_cons_of_ne {k a : Nat} (b : Byte) (rest : Memory) (h : k ≠ a) :
    Memory.read ((k, b) :: rest) a = Memory.read rest a :=
  if_neg h

/-- Below its lowest possible address a canonical memory lists nothing. -/
theorem Memory.read_of_lt {m : Memory} {low a : Nat} (h : Memory.wfFrom low m = true) (ha : a < low) :
    Memory.read m a = Memory.unlisted a := by
  induction m generalizing low with
  | nil => rfl
  | cons kb rest ih =>
    obtain ⟨k, b⟩ := kb
    obtain ⟨hk, -, -, hrest⟩ := Memory.wfFrom_cons.mp h
    rw [Memory.read_cons_of_ne b rest (by omega), ih hrest (by omega)]

theorem Memory.le_of_read_ne {m : Memory} {low a : Nat} (h : Memory.wfFrom low m = true)
    (hne : Memory.read m a ≠ Memory.unlisted a) : low ≤ a := by
  by_contra hlt
  exact hne (Memory.read_of_lt h (by omega))

section
variable {low k : Nat} {b : Byte} {rest : Memory} (h : Memory.wfFrom low ((k, b) :: rest) = true)
include h

/-- A canonical memory lists no byte that its address reads as unlisted. -/
theorem Memory.read_head_ne_unlisted : Memory.read ((k, b) :: rest) k ≠ Memory.unlisted k := by
  obtain ⟨-, -, hb, -⟩ := Memory.wfFrom_cons.mp h
  rwa [Memory.read_cons_self]

theorem Memory.wfFrom_head : Memory.wfFrom k ((k, b) :: rest) = true := by
  obtain ⟨-, hk, hb, hrest⟩ := Memory.wfFrom_cons.mp h
  exact Memory.wfFrom_cons.mpr ⟨le_rfl, hk, hb, hrest⟩

theorem Memory.wfFrom_tail : Memory.wfFrom (k + 1) rest = true := by
  obtain ⟨-, -, -, hrest⟩ := Memory.wfFrom_cons.mp h
  exact hrest

end

/-- Reading alike survives dropping the same first entry. -/
theorem Memory.read_tails {rest rest' : Memory} {k : Nat} {b : Byte} (h : Memory.wfFrom (k + 1) rest = true)
    (h' : Memory.wfFrom (k + 1) rest' = true)
    (hread : ∀ a, Memory.read ((k, b) :: rest) a = Memory.read ((k, b) :: rest') a) (a : Nat) :
    Memory.read rest a = Memory.read rest' a := by
  by_cases ha : k = a
  · rw [Memory.read_of_lt h (by omega), Memory.read_of_lt h' (by omega)]
  · simpa only [Memory.read_cons_of_ne _ _ ha] using hread a

/-- The lowest address that either memory lists is listed in both, so their first entries agree, and so on. -/
theorem Memory.eq_of_read_eq {m m' : Memory} {low low' : Nat} (h : Memory.wfFrom low m = true)
    (h' : Memory.wfFrom low' m' = true) (hread : ∀ a, Memory.read m a = Memory.read m' a) : m = m' := by
  induction m generalizing low low' m' with
  | nil =>
    cases m' with
    | nil => rfl
    | cons kb' rest' => exact absurd (hread _).symm (Memory.read_head_ne_unlisted h')
  | cons kb rest ih =>
    obtain ⟨k, b⟩ := kb
    cases m' with
    | nil => exact absurd (hread k) (Memory.read_head_ne_unlisted h)
    | cons kb' rest' =>
      obtain ⟨k', b'⟩ := kb'
      have hle : k' ≤ k :=
        Memory.le_of_read_ne (Memory.wfFrom_head h') (hread k ▸ Memory.read_head_ne_unlisted h)
      have hge : k ≤ k' :=
        Memory.le_of_read_ne (Memory.wfFrom_head h) ((hread k').symm ▸ Memory.read_head_ne_unlisted h')
      obtain rfl : k = k' := le_antisymm hge hle
      obtain rfl : b = b' := by simpa only [Memory.read_cons_self] using hread k
      have htail := Memory.wfFrom_tail h
      have htail' := Memory.wfFrom_tail h'
      rw [ih htail htail' (Memory.read_tails htail htail' hread)]

/-- Settles O11, by induction on the two lists: their first entries agree, and so do the rests. -/
theorem canonicalMemoryIsUnique : Obligations.CanonicalMemoryIsUnique := by
  unfold Obligations.CanonicalMemoryIsUnique
  intro m m' h h' hread
  exact Memory.eq_of_read_eq h h' hread

/-! ## Which instruction writes memory (rules R31, R39) -/

@[simp] theorem State.jumpIf_mem (s : State) (taken : Bool) (d : Word) : (s.jumpIf taken d).mem = s.mem := by
  cases taken <;> rfl

@[simp] theorem State.setSpecial_mem (s : State) (r : Special) (v : Word) : (s.setSpecial r v).mem = s.mem := by
  cases r <;> rfl

@[simp] theorem State.set_mem (s : State) (r : LReg) (v : Word) : (s.set r v).mem = s.mem := by
  cases r with
  | general r => rfl
  | special r => exact s.setSpecial_mem r v

theorem State.popInto_mem {s t : State} {dst : LReg} (h : s.popInto dst = .ok t) : t.mem = s.mem := by
  by_cases hs : s.sp = 0xFFFF#16
  · rw [State.popInto_overflow s dst hs] at h; cases h
  · rw [State.popInto_ok s dst hs] at h
    cases h
    simp

/-- From `s` to `t` only the two bytes at the address `o` may change, and none where there is no address. -/
def StoredOnlyAt (o : Option Word) (s t : State) : Prop :=
  ∀ b : Word, (∀ a, o = some a → b ≠ a ∧ b ≠ a + 1) → t.readByte b = s.readByte b

namespace StoredOnlyAt

variable {o : Option Word} {s t : State}

theorem of_mem_eq (h : t.mem = s.mem) : StoredOnlyAt o s t := by
  intro b _
  rw [State.readByte, State.readByte, h]

theorem of_wordStored {a v : Word} (h : WordStored a v s t) : StoredOnlyAt (some a) s t := by
  intro b hb
  obtain ⟨hlow, hhigh⟩ := hb a rfl
  exact h.other hlow hhigh

theorem writeWord {a v : Word} (h : s.writeWord a v = .ok t) : StoredOnlyAt (some a) s t := by
  obtain ⟨-, hstored, -⟩ := State.writeWord_spec h
  exact of_wordStored hstored

theorem pushWord {v : Word} (h : s.pushWord v = .ok t) : StoredOnlyAt (some (s.sp - 2)) s t := by
  obtain ⟨-, hstored, -⟩ := State.pushWord_spec h
  exact of_wordStored hstored

theorem setPc {v : Word} (h : StoredOnlyAt o s t) : StoredOnlyAt o s (t.setPc v) := h

/-- A handler that faults leaves memory alone, so only its completed result is left to consider. -/
theorem finish {r : Except Fault State} (h : finish s r = .next t) (hok : r = .ok t → StoredOnlyAt o s t) :
    StoredOnlyAt o s t := by
  cases r with
  | error f => cases h; exact of_mem_eq rfl
  | ok u => cases h; exact hok rfl

end StoredOnlyAt

/-- Every instruction, faulting or not, changes at most the two bytes at its store address (rules R31, R39). -/
theorem exec_storedOnlyAt {i : Instr} {s t : State} (h : exec i s = .next t) :
    StoredOnlyAt (storeAddress s i) s t := by
  cases i with
  | str | st => exact .finish h .writeWord
  | push => exact .finish h .pushWord
  | call d =>
    refine .finish h fun hok => ?_
    cases hp : s.pushWord s.pc with
    | error f => rw [hp] at hok; cases hok
    | ok u => rw [hp] at hok; cases hok; exact (StoredOnlyAt.pushWord hp).setPc
  | pop | ret => exact .finish h fun hok => .of_mem_eq (State.popInto_mem hok)
  | ldr rd rs =>
    simp only [exec, execLdr] at h
    split at h <;> cases h <;> exact .of_mem_eq rfl
  | ld rt imm8 =>
    simp only [exec, execLd, State.readWord_ok s (literalAddress_ne_top imm8)] at h
    cases h; exact .of_mem_eq rfl
  | jmp | jz | jnz | jgt => cases h; exact .of_mem_eq (State.jumpIf_mem ..)
  | mts => cases h; exact .of_mem_eq (State.set_mem ..)
  | add | sub | and | or | xor | not | shl | shr | cmp | addi | andi | ori | lui | cmpi | nop | mfs | sysall
  | halt => cases h; exact .of_mem_eq rfl

/-- Settles O54, by the frame of every instruction on memory. -/
theorem onlyStoresWriteMemory : Obligations.OnlyStoresWriteMemory := by
  unfold Obligations.OnlyStoresWriteMemory
  intro i s t h
  refine ⟨fun hnone b => ?_, fun a ha b hlow hhigh => ?_⟩
  · exact exec_storedOnlyAt h b fun a ha => nomatch hnone.symm.trans ha
  · refine exec_storedOnlyAt h b fun a' ha' => ?_
    obtain rfl : a = a' := Option.some.inj (ha.symm.trans ha')
    exact ⟨hlow, hhigh⟩

/-! ## The invariant of the machine (rules R81, R162, R170) -/

theorem Inv.of_no_fault {s : State} (hmem : Memory.wf s.mem = true) (hf : s.fault = none) : Inv s := by
  refine ⟨hmem, fun ⟨_, hne⟩ => hne hf, ?_⟩
  rw [FaultExplained, hf]
  trivial

theorem Inv.latch {s : State} {f : Fault} (hmem : Memory.wf s.mem = true) (hh : s.halted = false)
    (he : FaultExplained (s.latch f)) : Inv (s.latch f) :=
  ⟨hmem, fun ⟨hh', _⟩ => absurd (hh.symm.trans hh') (by decide), he⟩

/-- Past the fetch, the word before pc is the word fetched (rules R83, R170). -/
theorem wordBeforePc_of_fetches {s : State} {w : Word} (hw : Fetches s w) :
    wordBeforePc (s.setPc (s.pc + 2)) = w := by
  obtain ⟨-, -, -, -, hword⟩ := hw
  have hlow : s.pc + 2 - 2 = s.pc := BitVec.add_sub_cancel ..
  have hhigh : s.pc + 2 - 1 = s.pc + 1 := by bv_omega
  simp only [wordBeforePc, State.setPc_pc, State.setPc_readByte, hlow, hhigh, hword]

theorem faultExplained_of_outside {s : State} (h : OutsideProgram s) :
    FaultExplained (s.latch
      (.programBoundsViolation s.pc (instructionEnd s.pc) s.programStart s.programEnd)) := by
  refine ⟨rfl, ?_, rfl, rfl, h⟩
  exact instructionEnd_toNat s.pc

theorem faultExplained_of_top {s : State} (hin : ¬ OutsideProgram s) (hpc : s.pc = 0xFFFF#16) :
    FaultExplained (s.latch (.memoryOutOfBounds 0xFFFF#16)) :=
  ⟨rfl, .inl ⟨hpc, hin⟩⟩

theorem faultExplained_of_decode_error {s : State} {w : Word} {e : DecodeError} (hword : wordBeforePc s = w)
    (he : decode s.params.enc w = .error e) : FaultExplained (s.latch (.invalidInstruction w e)) :=
  ⟨hword, he⟩

/-- The fault of an instruction's handler is explained by the instruction before pc (rule R162). -/
theorem faultExplained_of_handlerFault {i : Instr} {s : State} {f : Fault} (hd : DecodedBeforePc s i)
    (hf : handlerFault s i = some f) : FaultExplained (s.latch f) := by
  cases i with
  | ldr rd rs =>
    obtain ⟨⟨hea, hrs⟩, ⟨⟩⟩ := Option.ite_none_right_eq_some.mp hf
    exact ⟨rfl, .inr ⟨hea, rd, rs, hrs, .inl hd⟩⟩
  | str rd rs =>
    obtain ⟨⟨hea, hrs⟩, ⟨⟩⟩ := Option.ite_none_right_eq_some.mp hf
    exact ⟨rfl, .inr ⟨hea, rd, rs, hrs, .inr hd⟩⟩
  | push rs =>
    obtain ⟨hsp, ⟨⟩⟩ := Option.ite_none_right_eq_some.mp hf
    exact .inl ⟨hsp, .inl ⟨rs, hd⟩⟩
  | call d =>
    obtain ⟨hsp, ⟨⟩⟩ := Option.ite_none_right_eq_some.mp hf
    exact .inl ⟨hsp, .inr ⟨d, hd⟩⟩
  | pop rd =>
    obtain ⟨hsp, ⟨⟩⟩ := Option.ite_none_right_eq_some.mp hf
    exact .inr ⟨hsp, .inl ⟨rd, hd⟩⟩
  | ret =>
    obtain ⟨hsp, ⟨⟩⟩ := Option.ite_none_right_eq_some.mp hf
    exact .inr ⟨hsp, .inr hd⟩
  | sysall => cases hf; exact hd
  | add | sub | and | or | xor | not | shl | shr | cmp | ld | st | addi | andi | ori | lui | cmpi
  | jmp | jz | jnz | jgt | nop | mfs | mts | halt => cases hf

/-- An instruction that runs on a state with itself before pc, as a step runs it, ends in the invariant. -/
theorem exec_inv {i : Instr} {s t : State} (hmem : Memory.wf s.mem = true) (hf : s.fault = none)
    (hh : s.halted = false) (hd : DecodedBeforePc s i) (h : exec i s = .next t) : Inv t := by
  rcases hraise : handlerFault s i with _ | f
  · obtain ⟨hlatch, -, -, -, -, hkeep⟩ := exec_controlKept hraise h
    exact .of_no_fault (hkeep hmem) (hlatch.trans hf)
  · rw [exec_of_handlerFault hraise] at h
    cases h
    exact .latch hmem hh (faultExplained_of_handlerFault hd hraise)

/-- Settles O49: a case for each way a step can end, its fault explained by the condition it was raised
under. -/
theorem stepKeepsInvariant : Obligations.StepKeepsInvariant := by
  unfold Obligations.StepKeepsInvariant
  intro s t hinv h
  have ⟨hmem, _, _⟩ := hinv
  obtain ⟨hf, ⟨-, rfl⟩ | ⟨hh, ⟨hout, rfl⟩ | ⟨hin, hpc, rfl⟩ | ⟨w, hw, ⟨e, he, rfl⟩ | ⟨i, hi, hex⟩⟩⟩⟩ :=
    step_next_cases h
  · exact hinv
  · exact .latch hmem hh (faultExplained_of_outside hout)
  · exact .latch hmem hh (faultExplained_of_top hin hpc)
  · exact .latch hmem hh (faultExplained_of_decode_error (wordBeforePc_of_fetches hw) he)
  · have hd : DecodedBeforePc (s.setPc (s.pc + 2)) i := by
      rw [DecodedBeforePc, wordBeforePc_of_fetches hw]
      exact hi
    exact exec_inv (s := s.setPc (s.pc + 2)) hmem hf hh hd hex

end Sys2Proof.Machine

/-! # Proofs of the encoding family: the word codec, which bits a decode uses, which words are no instruction,
and the assembly lines -/

namespace Sys2Proof

/-! ## The word codec as a bijection (rules R56, R69) -/

section
variable {enc : Config.Enc} {opcode : BitVec 4}

theorem layoutOf_eq_iType_iff : layoutOf enc opcode = some .iType ↔ 0x2 ≤ opcode.toNat ∧ opcode.toNat ≤ 0x8 := by
  unfold layoutOf
  split_ifs <;> simp_all

theorem layoutOf_eq_jType_iff : layoutOf enc opcode = some .jType ↔ 0x9 ≤ opcode.toNat ∧ opcode.toNat ≤ 0xD := by
  unfold layoutOf
  split_ifs <;> simp_all
  omega

theorem layoutOf_eq_eType_iff : layoutOf enc opcode = some .eType ↔ opcode = 0xF#4 := by
  rw [← BitVec.toNat_inj]
  unfold layoutOf
  split_ifs <;> simp_all <;> omega

end

/-! What splitting a word can do: the layout that its opcode selects fixes the tuple (rules R52 to R56). -/

theorem splitWord_of_rType {enc : Config.Enc} {w : Word} (h : layoutOf enc (w.extractLsb' 12 4) = some .rType) :
    splitWord enc w = .ok (.rType (w.extractLsb' 12 4) (w.extractLsb' 9 3) (w.extractLsb' 6 3)
      (w.extractLsb' 3 3) (w.extractLsb' 0 3)) := by
  simp only [splitWord, h]

theorem splitWord_of_iType {enc : Config.Enc} {w : Word} (h : layoutOf enc (w.extractLsb' 12 4) = some .iType) :
    splitWord enc w = .ok (.iType (w.extractLsb' 12 4) (w.extractLsb' 9 3) (w.extractLsb' 0 9)) := by
  simp only [splitWord, h]

theorem splitWord_of_jType {enc : Config.Enc} {w : Word} (h : layoutOf enc (w.extractLsb' 12 4) = some .jType) :
    splitWord enc w = .ok (.jType (w.extractLsb' 12 4) (w.extractLsb' 0 12)) := by
  simp only [splitWord, h]

theorem splitWord_of_none {enc : Config.Enc} {w : Word} (h : layoutOf enc (w.extractLsb' 12 4) = none) :
    splitWord enc w = .error (.unassignedOpcode (w.extractLsb' 12 4)) := by
  simp only [splitWord, h]

/-- A word with a layout splits into a tuple of that layout, which joins to the word again (rule R69). -/
theorem splitWord_of_layout {enc : Config.Enc} {w : Word} (h : layoutOf enc (w.extractLsb' 12 4) ≠ none) :
    ∃ f, splitWord enc w = .ok f ∧ f.wellFormed enc = true ∧ joinFields f = w := by
  obtain ⟨l, hl⟩ := Option.ne_none_iff_exists'.mp h
  cases l with
  | rType => exact ⟨_, splitWord_of_rType hl, beq_iff_eq.mpr hl, joinFields_rType_extract w⟩
  | iType =>
    have hr := layoutOf_eq_iType_iff.mp hl
    exact ⟨_, splitWord_of_iType hl, by simpa [Fields.wellFormed] using hr, joinFields_iType_extract w⟩
  | jType =>
    have hr := layoutOf_eq_jType_iff.mp hl
    exact ⟨_, splitWord_of_jType hl, by simpa [Fields.wellFormed] using hr, joinFields_jType_extract w⟩
  | eType =>
    have hF := layoutOf_eq_eType_iff.mp hl
    exact ⟨_, splitWord_of_eType hF, rfl, joinFields_eType_extract hF⟩

/-- The layouts of the spec's `ENC` (rule R56). -/
theorem layoutOf_spec_ne_none_iff (opcode : BitVec 4) : layoutOf .spec opcode ≠ none ↔ opcode ≠ 0xE#4 := by
  revert opcode; decide

/-- Settles O2: splitting then joining by the layout of the word, joining then splitting by that of the tuple. -/
theorem wordCodecIsBijection : Obligations.WordCodecIsBijection := by
  unfold Obligations.WordCodecIsBijection
  exact ⟨fun _ _ => splitWord_of_layout, fun _ _ => splitWord_joinFields, fun _ => layoutOf_spec_ne_none_iff _⟩

/-! ## The decoder as a relation: what a word that decodes is (rule R68) -/

/-- The instruction that an R-type dispatch gives for its register fields (rules R58, R64). -/
def ROp.instr : ROp → Reg → Reg → Reg → Instr
  | .add, rd, rs, rt => .add rd rs rt
  | .sub, rd, rs, rt => .sub rd rs rt
  | .and, rd, rs, rt => .and rd rs rt
  | .or, rd, rs, rt => .or rd rs rt
  | .xor, rd, rs, rt => .xor rd rs rt
  | .not, rd, rs, _ => .not rd rs
  | .shl, rd, rs, rt => .shl rd rs rt
  | .shr, rd, rs, rt => .shr rd rs rt
  | .ldr, rd, rs, _ => .ldr rd rs
  | .str, rd, rs, _ => .str rd rs
  | .cmp, _, rs, rt => .cmp rs rt
  | .ret, _, _, _ => .ret
  | .push, _, rs, _ => .push rs
  | .pop, rd, _, _ => .pop rd

/-- The instruction that an I-type dispatch gives for its register and immediate (rule R59). -/
def IOp.instr : IOp → Reg → Byte → Instr
  | .ld => .ld
  | .st => .st
  | .addi => .addi
  | .andi => .andi
  | .ori => .ori
  | .lui => .lui
  | .cmpi => .cmpi

/-- The jump of a kind with its delta (rule R60). -/
def JOp.instr : JOp → Word → Instr
  | .call => .call
  | .jmp => .jmp
  | .jz => .jz
  | .jnz => .jnz
  | .jgt => .jgt

section
variable {enc : Config.Enc} {opcode : BitVec 4}

theorem decodeFields_rType {funct : BitVec 3} {o : ROp} (h : findROp enc opcode funct = some o) (rd rs rt : Reg) :
    decodeFields enc (.rType opcode rd rs rt funct) = .ok (o.instr rd rs rt) := by
  cases o <;> simp only [decodeFields, h, ROp.instr]

theorem decodeFields_iType {o : IOp} (h : findIOp enc opcode = some o) (rt : Reg) (imm : BitVec 9) :
    decodeFields enc (.iType opcode rt imm) = .ok (o.instr rt (imm8Of imm)) := by
  cases o <;> simp only [decodeFields, h, IOp.instr]

theorem decodeFields_jType {o : JOp} (h : findJOp enc opcode = some o) (offset : BitVec 12) :
    decodeFields enc (.jType opcode offset) = .ok (o.instr (sext12 offset)) := by
  cases o <;> simp only [decodeFields, h, JOp.instr]

theorem decodeFields_rType_none {funct : BitVec 3} (h : findROp enc opcode funct = none) (rd rs rt : Reg) :
    decodeFields enc (.rType opcode rd rs rt funct) = .error (.invalidRType opcode funct) := by
  simp only [decodeFields, h]

theorem decodeFields_iType_none (h : findIOp enc opcode = none) (rt : Reg) (imm : BitVec 9) :
    decodeFields enc (.iType opcode rt imm) = .error (.invalidIType opcode) := by
  simp only [decodeFields, h]

theorem decodeFields_jType_none (h : findJOp enc opcode = none) (offset : BitVec 12) :
    decodeFields enc (.jType opcode offset) = .error (.invalidJType opcode) := by
  simp only [decodeFields, h]

end

end Sys2Proof

namespace Sys2Proof.Machine

/-- The word `w` decodes to an instruction: its layout, the row of the tables that it is in, and the operands
from their fields. -/
inductive Decodes (enc : Config.Enc) (w : Word) : Instr → Prop where
  | rType {o : ROp} (hl : layoutOf enc (opcodeOf w) = some .rType)
      (ho : findROp enc (opcodeOf w) (functOf w) = some o) : Decodes enc w (o.instr (rdOf w) (rsOf w) (rtOf w))
  | iType {o : IOp} (hl : layoutOf enc (opcodeOf w) = some .iType)
      (ho : findIOp enc (opcodeOf w) = some o) : Decodes enc w (o.instr (iRtOf w) (iImm8Of w))
  | jType {o : JOp} (hl : layoutOf enc (opcodeOf w) = some .jType)
      (ho : findJOp enc (opcodeOf w) = some o) : Decodes enc w (o.instr (sext12 (jOffsetOf w)))
  | nop (hF : opcodeOf w = 0xF#4) (ho : findEOp enc (subcodeOf w) = some .nop) : Decodes enc w .nop
  | mfs {sel : Special} (hF : opcodeOf w = 0xF#4) (ho : findEOp enc (subcodeOf w) = some .mfs)
      (hs : findSpecial enc (eRsOf w) = some sel) : Decodes enc w (.mfs (eRtOf w) sel)
  | mts {sel : Special} (hF : opcodeOf w = 0xF#4) (ho : findEOp enc (subcodeOf w) = some .mts)
      (hs : findSpecial enc (eRsOf w) = some sel) : Decodes enc w (.mts sel (eRtOf w))
  | sysall (hF : opcodeOf w = 0xF#4) (ho : findEOp enc (subcodeOf w) = some .sysall) : Decodes enc w .sysall
  | halt (hF : opcodeOf w = 0xF#4) (ho : findEOp enc (subcodeOf w) = some .halt) : Decodes enc w .halt

theorem imm8Of_immediate (w : Word) : imm8Of (w.extractLsb' 0 9) = iImm8Of w := by
  ext i h; simp only [imm8Of]; interval_cases i <;> simp

section
variable {enc : Config.Enc} {w : Word}

/-- The decode of a word with a layout, as the decode of the tuple that it splits into. -/
theorem decode_of_split {f : Fields} (h : splitWord enc w = .ok f) : decode enc w = decodeFields enc f := by
  rw [decode, h]

theorem decode_of_eType (h : opcodeOf w = 0xF#4) : decode enc w =
    decodeFields enc (.eType (subcodeOf w) (eRsOf w) (eRtOf w) (w.extractLsb' 0 2)) :=
  decode_of_split (splitWord_of_eType h)

theorem Decodes.decode_eq {i : Instr} (h : Decodes enc w i) : decode enc w = .ok i := by
  cases h with
  | rType hl ho => rw [decode_of_split (splitWord_of_rType hl), decodeFields_rType ho]
  | iType hl ho => rw [decode_of_split (splitWord_of_iType hl), decodeFields_iType ho, imm8Of_immediate]
  | jType hl ho => rw [decode_of_split (splitWord_of_jType hl), decodeFields_jType ho]
  | nop hF ho | sysall hF ho | halt hF ho => simp only [decode_of_eType hF, decodeFields, ho]
  | mfs hF ho hs | mts hF ho hs => simp only [decode_of_eType hF, decodeFields, ho, hs]

theorem Decodes.of_decode_eq {i : Instr} (h : decode enc w = .ok i) : Decodes enc w i := by
  rcases hl : layoutOf enc (opcodeOf w) with _ | _ | _ | _ | _
  case none => rw [decode, splitWord_of_none hl] at h; cases h
  case rType =>
    rw [decode_of_split (splitWord_of_rType hl)] at h
    rcases ho : findROp enc (opcodeOf w) (functOf w) with _ | o
    · rw [decodeFields_rType_none ho] at h; cases h
    · rw [decodeFields_rType ho] at h; cases h; exact .rType hl ho
  case iType =>
    rw [decode_of_split (splitWord_of_iType hl)] at h
    rcases ho : findIOp enc (opcodeOf w) with _ | o
    · rw [decodeFields_iType_none ho] at h; cases h
    · rw [decodeFields_iType ho, imm8Of_immediate] at h; cases h; exact .iType hl ho
  case jType =>
    rw [decode_of_split (splitWord_of_jType hl)] at h
    rcases ho : findJOp enc (opcodeOf w) with _ | o
    · rw [decodeFields_jType_none ho] at h; cases h
    · rw [decodeFields_jType ho] at h; cases h; exact .jType hl ho
  case eType =>
    have hF := layoutOf_eq_eType_iff.mp hl
    rw [decode_of_eType hF] at h
    simp only [decodeFields] at h
    split at h
    · next ho => cases h; exact .nop hF ho
    · next ho => split at h <;> cases h; next hs => exact .mfs hF ho hs
    · next ho => split at h <;> cases h; next hs => exact .mts hF ho hs
    · next ho => cases h; exact .sysall hF ho
    · next ho => cases h; exact .halt hF ho
    · cases h

end

end Sys2Proof.Machine

namespace Sys2Proof

/-! ## Masks on a word as masks on its fields (rules R52 to R55) -/

/-- A mask of `n` ones keeps every bit of a field of `n` bits. -/
theorem and_ones {n : Nat} {x m : BitVec n} (h : m = BitVec.allOnes n) : x &&& m = x := by
  rw [h, BitVec.and_allOnes]

@[simp] theorem and_ones_three (x : BitVec 3) : x &&& 7#3 = x := and_ones rfl

@[simp] theorem and_ones_four (x : BitVec 4) : x &&& 15#4 = x := and_ones rfl

theorem joinFields_rType_and (op op' : BitVec 4) (rd rd' rs rs' rt rt' : Reg) (funct funct' : BitVec 3) :
    joinFields (.rType op rd rs rt funct) &&& joinFields (.rType op' rd' rs' rt' funct') =
      joinFields (.rType (op &&& op') (rd &&& rd') (rs &&& rs') (rt &&& rt') (funct &&& funct')) := by
  rw [← joinFields_rType_extract (_ &&& _)]
  simp [BitVec.extractLsb'_and]

theorem joinFields_iType_and (op op' : BitVec 4) (rt rt' : Reg) (imm imm' : BitVec 9) :
    joinFields (.iType op rt imm) &&& joinFields (.iType op' rt' imm') =
      joinFields (.iType (op &&& op') (rt &&& rt') (imm &&& imm')) := by
  rw [← joinFields_iType_extract (_ &&& _)]
  simp [BitVec.extractLsb'_and]

theorem joinFields_eType_and (sub sub' : BitVec 4) (rs rs' rt rt' : Reg) (unused unused' : BitVec 2) :
    joinFields (.eType sub rs rt unused) &&& joinFields (.eType sub' rs' rt' unused') =
      joinFields (.eType (sub &&& sub') (rs &&& rs') (rt &&& rt') (unused &&& unused')) := by
  rw [← joinFields_eType_extract (w := _ &&& _) (by simp [BitVec.extractLsb'_and])]
  simp [BitVec.extractLsb'_and]

/-- The canonical immediate field is the field with bit 8 cleared (rules R63, R72). -/
theorem setWidth_imm8Of (imm : BitVec 9) : (imm8Of imm).setWidth 9 = imm &&& 0xFF := by
  ext i h; simp only [imm8Of]; interval_cases i <;> simp

theorem offsetOf_sext12 (offset : BitVec 12) : offsetOf (sext12 offset) = offset := by
  ext i h; simp only [offsetOf, sext12]; interval_cases i <;> simp [BitVec.getElem_signExtend]

/-! ## The fields that an instruction uses (rules R64, R65) -/

/-- Masks for the fields rd, rs and rt of an R-type instruction: 7 where it uses the field, else 0. -/
def ROp.regMask : ROp → Reg × Reg × Reg
  | .add | .sub | .and | .or | .xor | .shl | .shr => (7, 7, 7)
  | .not | .ldr | .str => (7, 7, 0)
  | .cmp => (0, 7, 7)
  | .ret => (0, 0, 0)
  | .push => (0, 7, 0)
  | .pop => (7, 0, 0)

/-- The mask of an R-type instruction on the whole word. -/
def ROp.used (o : ROp) : Word := joinFields (.rType 0xF o.regMask.1 o.regMask.2.1 o.regMask.2.2 7)

theorem ROp.usedBits_instr (o : ROp) (rd rs rt : Reg) : Machine.usedBits (o.instr rd rs rt) = o.used := by
  cases o <;> rfl

/-- The fields outside the mask select nothing. -/
theorem ROp.instr_and (o : ROp) (rd rs rt : Reg) :
    o.instr (rd &&& o.regMask.1) (rs &&& o.regMask.2.1) (rt &&& o.regMask.2.2) = o.instr rd rs rt := by
  cases o <;> simp [ROp.instr, ROp.regMask]

/-- The encoder writes 0 into the fields outside the mask. -/
theorem fieldsOf_rOp (enc : Config.Enc) (o : ROp) (rd rs rt : Reg) : fieldsOf enc (o.instr rd rs rt) =
    rFields enc o (rd &&& o.regMask.1) (rs &&& o.regMask.2.1) (rt &&& o.regMask.2.2) := by
  cases o <;> simp [ROp.instr, ROp.regMask, fieldsOf]

theorem fieldsOf_iOp (enc : Config.Enc) (o : IOp) (rt : Reg) (imm8 : Byte) :
    fieldsOf enc (o.instr rt imm8) = iFields enc o rt imm8 := by
  cases o <;> rfl

theorem fieldsOf_jOp (enc : Config.Enc) (o : JOp) (delta : Word) :
    fieldsOf enc (o.instr delta) = jFields enc o delta := by
  cases o <;> rfl

theorem IOp.usedBits_instr (o : IOp) (rt : Reg) (imm8 : Byte) :
    Machine.usedBits (o.instr rt imm8) = joinFields (.iType 0xF 7 0xFF) := by
  cases o <;> rfl

theorem JOp.usedBits_instr (o : JOp) (delta : Word) : Machine.usedBits (o.instr delta) = BitVec.allOnes 16 := by
  cases o <;> rfl

theorem ROp.instr_wellFormed (o : ROp) (rd rs rt : Reg) : (o.instr rd rs rt).wellFormed = true := by
  cases o <;> rfl

theorem IOp.instr_wellFormed (o : IOp) (rt : Reg) (imm8 : Byte) : (o.instr rt imm8).wellFormed = true := by
  cases o <;> rfl

theorem JOp.instr_wellFormed (o : JOp) (delta : Word) : (o.instr delta).wellFormed = deltaFits delta := by
  cases o <;> rfl

end Sys2Proof

namespace Sys2Proof.Machine

/-! ## The canonical encoding of a decoded instruction (rule R72) -/

section
variable {enc : Config.Enc} {w : Word} {i : Instr}

/-- The word of an E-type instruction whose fields are those of `w`, less the ignored bits. -/
theorem joinFields_eFields {o : EOp} (hF : opcodeOf w = 0xF#4) (ho : findEOp enc (subcodeOf w) = some o)
    (rsMask rtMask : Reg) : joinFields (eFields enc o (eRsOf w &&& rsMask) (eRtOf w &&& rtMask)) =
      w &&& joinFields (.eType 0xF rsMask rtMask 0) := by
  conv_rhs => rw [← joinFields_eType_extract hF, joinFields_eType_and]
  simp [eFields, findEOp_some ho]

/-- Whatever a word decodes to is well-formed: only a jump's delta could fail, and it is sign-extended. -/
theorem Decodes.wellFormed (h : Decodes enc w i) : i.wellFormed = true := by
  cases h with
  | rType => exact ROp.instr_wellFormed ..
  | iType => exact IOp.instr_wellFormed ..
  | jType => rw [JOp.instr_wellFormed]; exact deltaFits_sext12 _
  | nop | mfs | mts | sysall | halt => rfl

theorem Decodes.encode_eq (h : Decodes enc w i) : encode enc i = w &&& usedBits i := by
  cases h with
  | rType hl ho =>
    conv_rhs => rw [← joinFields_rType_extract w, ROp.usedBits_instr, ROp.used, joinFields_rType_and]
    simp [encode, fieldsOf_rOp, rFields, findROp_some ho]
  | iType hl ho =>
    conv_rhs => rw [← joinFields_iType_extract w, IOp.usedBits_instr, joinFields_iType_and]
    simp [encode, fieldsOf_iOp, iFields, findIOp_some ho, ← imm8Of_immediate, setWidth_imm8Of]
  | jType hl ho =>
    rw [JOp.usedBits_instr, BitVec.and_allOnes, encode, fieldsOf_jOp, jFields, findJOp_some ho, offsetOf_sext12]
    exact joinFields_jType_extract w
  | nop hF ho | sysall hF ho | halt hF ho =>
    have he := joinFields_eFields hF ho 0#3 0#3
    simp only [BitVec.and_zero] at he
    exact he
  | mfs hF ho hs | mts hF ho hs =>
    have he := joinFields_eFields hF ho 7#3 7#3
    simp only [and_ones_three] at he
    rw [encode, fieldsOf, findSpecial_some hs]
    exact he

/-- Settles O3: an instruction that decodes has its numbers from the tables and its operands from the fields, and
the encoder writes those back and 0 elsewhere. -/
theorem encodeOfDecodeClearsIgnoredBits : Obligations.EncodeOfDecodeClearsIgnoredBits := by
  unfold Obligations.EncodeOfDecodeClearsIgnoredBits
  intro enc w i h
  have hd := Decodes.of_decode_eq h
  exact ⟨hd.wellFormed, hd.encode_eq⟩

end

end Sys2Proof.Machine

namespace Sys2Proof.Machine

/-! ## Ignored bits select nothing (rule R65) -/

section
variable {enc : Config.Enc} {w w' u : Word} {i : Instr}

/-- Words that agree under a mask agree in each field as far as the mask covers it. -/
theorem extract_and_of_and (h : w' &&& u = w &&& u) (start len : Nat) :
    w'.extractLsb' start len &&& u.extractLsb' start len =
      w.extractLsb' start len &&& u.extractLsb' start len := by
  rw [← BitVec.extractLsb'_and, ← BitVec.extractLsb'_and, h]

/-- Words that agree under a mask have the same fields where the mask covers the whole field. -/
theorem extract_of_and {start len : Nat} (h : w' &&& u = w &&& u)
    (hu : u.extractLsb' start len = BitVec.allOnes len) :
    w'.extractLsb' start len = w.extractLsb' start len := by
  simpa only [hu, BitVec.and_allOnes] using extract_and_of_and h start len

/-- Under a mask that covers opcode and subcode, the row of an E-type word. -/
theorem eType_row_of_and {o : EOp} (h : w' &&& u = w &&& u) (hop : opcodeOf u = BitVec.allOnes 4)
    (hsub : subcodeOf u = BitVec.allOnes 4) (hF : opcodeOf w = 0xF#4)
    (ho : findEOp enc (subcodeOf w) = some o) :
    opcodeOf w' = 0xF#4 ∧ findEOp enc (subcodeOf w') = some o := by
  have hop : opcodeOf w' = opcodeOf w := extract_of_and h hop
  have hsub : subcodeOf w' = subcodeOf w := extract_of_and h hsub
  exact ⟨hop.trans hF, hsub ▸ ho⟩

/-- A word that agrees with `w` on the bits that the instruction of `w` uses decodes to it too. -/
theorem Decodes.of_usedBits (hd : Decodes enc w i) (h : w' &&& usedBits i = w &&& usedBits i) :
    Decodes enc w' i := by
  cases hd with
  | @rType o hl ho =>
    rw [ROp.usedBits_instr] at h
    have hop : opcodeOf w' = opcodeOf w := extract_of_and h (joinFields_rType_opcode ..)
    have hfunct : functOf w' = functOf w := extract_of_and h (joinFields_rType_funct ..)
    have hrd : rdOf w' &&& o.regMask.1 = rdOf w &&& o.regMask.1 := by
      simpa [ROp.used] using extract_and_of_and h 9 3
    have hrs : rsOf w' &&& o.regMask.2.1 = rsOf w &&& o.regMask.2.1 := by
      simpa [ROp.used] using extract_and_of_and h 6 3
    have hrt : rtOf w' &&& o.regMask.2.2 = rtOf w &&& o.regMask.2.2 := by
      simpa [ROp.used] using extract_and_of_and h 3 3
    rw [← ROp.instr_and, ← hrd, ← hrs, ← hrt, ROp.instr_and]
    rw [← hop] at hl ho
    rw [← hfunct] at ho
    exact .rType hl ho
  | iType hl ho =>
    rw [IOp.usedBits_instr] at h
    have hop : opcodeOf w' = opcodeOf w := extract_of_and h rfl
    have hrt : iRtOf w' = iRtOf w := extract_of_and h rfl
    have himm : iImm8Of w' = iImm8Of w := extract_of_and h rfl
    rw [← hop] at hl ho
    rw [← hrt, ← himm]
    exact .iType hl ho
  | jType hl ho =>
    rw [JOp.usedBits_instr, BitVec.and_allOnes, BitVec.and_allOnes] at h
    rw [h]
    exact .jType hl ho
  | nop hF ho =>
    obtain ⟨hF, ho⟩ := eType_row_of_and h rfl rfl hF ho
    exact .nop hF ho
  | sysall hF ho =>
    obtain ⟨hF, ho⟩ := eType_row_of_and h rfl rfl hF ho
    exact .sysall hF ho
  | halt hF ho =>
    obtain ⟨hF, ho⟩ := eType_row_of_and h rfl rfl hF ho
    exact .halt hF ho
  | @mfs sel hF ho hs =>
    have h : w' &&& 0xFFFC#16 = w &&& 0xFFFC#16 := h
    obtain ⟨hF, ho⟩ := eType_row_of_and h rfl rfl hF ho
    have hrs : eRsOf w' = eRsOf w := extract_of_and h rfl
    have hrt : eRtOf w' = eRtOf w := extract_of_and h rfl
    exact hrt ▸ .mfs hF ho (hrs ▸ hs)
  | @mts sel hF ho hs =>
    have h : w' &&& 0xFFFC#16 = w &&& 0xFFFC#16 := h
    obtain ⟨hF, ho⟩ := eType_row_of_and h rfl rfl hF ho
    have hrs : eRsOf w' = eRsOf w := extract_of_and h rfl
    have hrt : eRtOf w' = eRtOf w := extract_of_and h rfl
    exact hrt ▸ .mts hF ho (hrs ▸ hs)

/-- `Add R0, R0, R0`: the sum 0 + 0 sets its flags, and the write to R0 is discarded (rules R11, R65). -/
theorem exec_add_zero (s : State) :
    exec (.add 0 0 0) s = .next { s with flags := { z := true, n := false, c := false, v := false } } := by
  have hadd : exec (.add 0 0 0) s = .next ((s.setFlags (addWithFlags 0 0).2).setReg 0#3 (addWithFlags 0 0).1) := rfl
  rw [hadd, State.setReg_zero]
  rfl

end

/-- Settles O4: equal used bits give the same row and the same operands, so the same decode. -/
theorem ignoredBitsSelectNothing : Obligations.IgnoredBitsSelectNothing := by
  unfold Obligations.IgnoredBitsSelectNothing
  refine ⟨fun enc w w' i h hu => ((Decodes.of_decode_eq h).of_usedBits hu).decode_eq, rfl, rfl, exec_add_zero⟩

/-! ## Which words are no instruction (rule R66) -/

section
variable (opcode subcode : BitVec 4) (funct sel : BitVec 3)

/-- The rows of the R-type table of the spec's `ENC` (rule R58). -/
theorem findROp_spec_eq_none_iff (h : layoutOf .spec opcode = some .rType) :
    findROp .spec opcode funct = none ↔ opcode = 0x1#4 ∧ 6 ≤ funct.toNat := by
  revert opcode funct; decide

/-- Every I-type opcode has its instruction (rule R59). -/
theorem findIOp_spec_ne_none (h : layoutOf .spec opcode = some .iType) : findIOp .spec opcode ≠ none := by
  revert opcode; decide

/-- Every J-type opcode has its jump kind (rule R60). -/
theorem findJOp_spec_ne_none (h : layoutOf .spec opcode = some .jType) : findJOp .spec opcode ≠ none := by
  revert opcode; decide

/-- The subcodes in no row of the E-type table (rule R61). -/
theorem findEOp_spec_eq_none_iff :
    findEOp .spec subcode = none ↔ 0x3 ≤ subcode.toNat ∧ subcode.toNat ≤ 0xD := by
  revert subcode; decide

/-- The selectors that name no special register (rule R62). -/
theorem findSpecial_spec_eq_none_iff : findSpecial .spec sel = none ↔ 3 ≤ sel.toNat := by
  revert sel; decide

end

section
variable {enc : Config.Enc} {w : Word}

theorem decode_of_no_layout {opcode : BitVec 4} (hop : opcodeOf w = opcode) (hl : layoutOf enc opcode = none) :
    decode enc w = .error (.unassignedOpcode opcode) := by
  subst hop
  rw [decode, splitWord_of_none hl]

theorem decode_of_no_rOp {opcode : BitVec 4} (hop : opcodeOf w = opcode) (hl : layoutOf enc opcode = some .rType)
    (h : findROp enc opcode (functOf w) = none) :
    decode enc w = .error (.invalidRType opcode (functOf w)) := by
  subst hop
  rw [decode_of_split (splitWord_of_rType hl), decodeFields_rType_none h]

theorem decode_of_no_eOp (hF : opcodeOf w = 0xF#4) (h : findEOp enc (subcodeOf w) = none) :
    decode enc w = .error (.invalidEType (subcodeOf w)) := by
  simp only [decode_of_eType hF, decodeFields, h]

theorem decode_of_no_special (hF : opcodeOf w = 0xF#4)
    (ho : findEOp enc (subcodeOf w) = some .mfs ∨ findEOp enc (subcodeOf w) = some .mts)
    (h : findSpecial enc (eRsOf w) = none) :
    decode enc w = .error (.invalidSpecialRegister (eRsOf w)) := by
  rcases ho with ho | ho <;> simp only [decode_of_eType hF, decodeFields, ho, h]

/-- An E-type word whose subcode is in the table, and whose selector names a register where it is a
special-register move, is an instruction (rule R61). -/
theorem decodes_eType (hF : opcodeOf w = 0xF#4) {o : EOp} (ho : findEOp enc (subcodeOf w) = some o)
    (hs : o = .mfs ∨ o = .mts → findSpecial enc (eRsOf w) ≠ none) : ∃ i, Decodes enc w i := by
  cases o with
  | nop => exact ⟨_, .nop hF ho⟩
  | sysall => exact ⟨_, .sysall hF ho⟩
  | halt => exact ⟨_, .halt hF ho⟩
  | mfs =>
    obtain ⟨sel, hsel⟩ := Option.ne_none_iff_exists'.mp (hs (.inl rfl))
    exact ⟨_, .mfs hF ho hsel⟩
  | mts =>
    obtain ⟨sel, hsel⟩ := Option.ne_none_iff_exists'.mp (hs (.inr rfl))
    exact ⟨_, .mts hF ho hsel⟩

/-- The words of the spec's `ENC` outside the four error branches are instructions (rule R66). -/
theorem decodes_spec (hE : opcodeOf w ≠ 0xE#4) (hR : ¬ (opcodeOf w = 0x1#4 ∧ 6 ≤ (functOf w).toNat))
    (hS : ¬ (opcodeOf w = 0xF#4 ∧ (subcodeOf w = 0x1#4 ∨ subcodeOf w = 0x2#4) ∧ 3 ≤ (eRsOf w).toNat))
    (hC : ¬ (opcodeOf w = 0xF#4 ∧ 0x3 ≤ (subcodeOf w).toNat ∧ (subcodeOf w).toNat ≤ 0xD)) :
    ∃ i, Decodes .spec w i := by
  obtain ⟨l, hl⟩ := Option.ne_none_iff_exists'.mp ((layoutOf_spec_ne_none_iff _).mpr hE)
  cases l with
  | rType =>
    obtain ⟨o, ho⟩ := Option.ne_none_iff_exists'.mp fun h => hR ((findROp_spec_eq_none_iff _ _ hl).mp h)
    exact ⟨_, .rType hl ho⟩
  | iType =>
    obtain ⟨o, ho⟩ := Option.ne_none_iff_exists'.mp (findIOp_spec_ne_none _ hl)
    exact ⟨_, .iType hl ho⟩
  | jType =>
    obtain ⟨o, ho⟩ := Option.ne_none_iff_exists'.mp (findJOp_spec_ne_none _ hl)
    exact ⟨_, .jType hl ho⟩
  | eType =>
    have hF := layoutOf_eq_eType_iff.mp hl
    obtain ⟨o, ho⟩ := Option.ne_none_iff_exists'.mp fun h => hC ⟨hF, (findEOp_spec_eq_none_iff _).mp h⟩
    refine decodes_eType hF ho fun hmove hnone => hS ⟨hF, ?_, (findSpecial_spec_eq_none_iff _).mp hnone⟩
    have hsub := findEOp_some ho
    rcases hmove with rfl | rfl
    · exact .inl hsub.symm
    · exact .inr hsub.symm

end

/-- Settles O5: each branch is a table that has no row for the word, and the last the words in a row of each. -/
theorem decodeErrorsPartitionTheWords : Obligations.DecodeErrorsPartitionTheWords := by
  unfold Obligations.DecodeErrorsPartitionTheWords
  intro w
  split_ifs with hE hR hS hC
  · exact decode_of_no_layout hE rfl
  · obtain ⟨hop, hfunct⟩ := hR
    exact decode_of_no_rOp hop rfl ((findROp_spec_eq_none_iff _ _ rfl).mpr ⟨rfl, hfunct⟩)
  · obtain ⟨hF, hsub, hsel⟩ := hS
    refine decode_of_no_special hF ?_ ((findSpecial_spec_eq_none_iff _).mpr hsel)
    rcases hsub with hsub | hsub <;> rw [hsub]
    · exact .inl rfl
    · exact .inr rfl
  · obtain ⟨hF, hsub⟩ := hC
    exact decode_of_no_eOp hF ((findEOp_spec_eq_none_iff _).mpr hsub)
  · obtain ⟨i, hi⟩ := decodes_spec hE hR hS hC
    exact ⟨i, hi.decode_eq⟩

end Sys2Proof.Machine

namespace Sys2Proof

/-- Settles O6: each word is the encoding that the tables give its instruction, and decoding undoes encoding; the
last has no layout. -/
theorem sampleWordsDecode : Obligations.SampleWordsDecode := by
  unfold Obligations.SampleWordsDecode
  have row (w : Word) (i : Instr) (hi : i.wellFormed = true) (hw : encode .spec i = w) : decode .spec w = .ok i :=
    hw ▸ decode_encode Config.Enc.spec_wellFormed hi
  exact ⟨row _ _ rfl rfl, row _ _ rfl rfl, row _ _ rfl rfl, row _ _ rfl rfl, row _ _ rfl rfl,
    Machine.decode_of_no_layout rfl rfl⟩

end Sys2Proof

namespace Sys2Proof

/-! ## The assembly lines (rule R70) -/

/-- The number of an unsigned immediate is in its range and gives the byte back. -/
theorem unsignedByte_toNat (b : Byte) : unsignedByte b.toNat = some b := by
  have hlt := b.isLt
  rw [unsignedByte, if_pos (by omega), BitVec.ofInt_natCast, BitVec.ofNat_toNat, BitVec.setWidth_eq]

/-- The number of a signed immediate is in its range and gives the byte back. -/
theorem signedByte_toInt (b : Byte) : signedByte b.toInt = some b := by
  have hge := b.le_toInt
  have hlt := b.toInt_lt
  rw [signedByte, if_pos (by omega), BitVec.ofInt_toInt]

/-- A delta that fits is a number of twelve bits. -/
theorem toInt_of_deltaFits {delta : Word} (h : deltaFits delta = true) :
    -2048 ≤ delta.toInt ∧ delta.toInt ≤ 2047 := by
  have hext : (delta.setWidth 12).signExtend 16 = delta := beq_iff_eq.mp h
  have heq : ((delta.setWidth 12).signExtend 16).toInt = (delta.setWidth 12).toInt :=
    BitVec.toInt_signExtend_of_le (by omega)
  rw [hext] at heq
  have hge := (delta.setWidth 12).le_toInt
  have hlt := (delta.setWidth 12).toInt_lt
  omega

/-- The distance of a jump is in its range and gives the delta back. -/
theorem jumpDelta_toInt {delta : Word} (h : deltaFits delta = true) : jumpDelta delta.toInt = some delta := by
  rw [jumpDelta, if_pos (toInt_of_deltaFits h), BitVec.ofInt_toInt]

theorem unsignedByte_eq_none {n : Int} (h : n < 0 ∨ 255 < n) : unsignedByte n = none :=
  if_neg (by omega)

theorem signedByte_eq_none {n : Int} (h : n < -128 ∨ 127 < n) : signedByte n = none :=
  if_neg (by omega)

theorem jumpDelta_eq_none {n : Int} (h : n < -2048 ∨ 2047 < n) : jumpDelta n = none :=
  if_neg (by omega)

theorem assemble_asm {i : Instr} (h : i.wellFormed = true) : assemble i.asm = some i := by
  cases i with
  | add | sub | and | or | xor | not | shl | shr | ldr | str | cmp | ret | push | pop
  | nop | mfs | mts | sysall | halt => rfl
  | ld | st | andi | ori | lui => simp [Instr.asm, assemble, unsignedByte_toNat]
  | addi | cmpi => simp [Instr.asm, assemble, signedByte_toInt]
  | call | jmp | jz | jnz | jgt => simp [Instr.asm, assemble, jumpDelta_toInt h]

/-- A line with a number alone is a jump, whatever its mnemonic, so the number is its distance. -/
theorem assemble_num_eq_none (m : String) {n : Int} (h : jumpDelta n = none) :
    assemble { mnemonic := m, operands := [.num n] } = none := by
  simp only [assemble, h]
  split <;> rfl

/-- Settles O7: the operand's number comes back from its range, and outside the range there is none. -/
theorem assembleOfAssemblyLine : Obligations.AssembleOfAssemblyLine := by
  unfold Obligations.AssembleOfAssemblyLine
  refine ⟨fun _ => assemble_asm, fun m rt n hm hn => ?_, fun m rt n hm hn => ?_,
    fun m n hn => assemble_num_eq_none m (jumpDelta_eq_none hn)⟩
  · have hnone := signedByte_eq_none hn
    simp only [List.mem_cons, List.not_mem_nil, or_false] at hm
    rcases hm with rfl | rfl <;> simp [assemble, hnone]
  · have hnone := unsignedByte_eq_none hn
    simp only [List.mem_cons, List.not_mem_nil, or_false] at hm
    rcases hm with rfl | rfl | rfl | rfl | rfl <;> simp [assemble, hnone]

end Sys2Proof

/-! # Proofs of the step family: what the flags of a comparison mean, a pop after a push, the target of a jump,
every instruction's completion, and what STEP and RUN report -/

namespace Sys2Proof.Machine

/-! ## What the flags mean after an addition and a subtraction (rules R90 to R92, R96) -/

section
variable (a b : Word)

/-- V after an addition is the library's signed overflow (rules R90, R91). -/
theorem addWithFlags_v : (addWithFlags a b).2.v = a.saddOverflow b := by
  rw [BitVec.saddOverflow_eq]
  simp only [addWithFlags, arithFlags]
  cases a.msb <;> cases b.msb <;> simp

/-- V after a subtraction is the library's signed overflow (rules R90, R92). -/
theorem subWithFlags_v : (subWithFlags a b).2.v = a.ssubOverflow b := by
  rw [BitVec.ssubOverflow_eq]
  rfl

theorem saddOverflow_iff :
    a.saddOverflow b = true ↔ a.toInt + b.toInt < -32768 ∨ 32767 < a.toInt + b.toInt := by
  simp only [BitVec.saddOverflow, Bool.or_eq_true, decide_eq_true_eq]
  omega

theorem ssubOverflow_iff :
    a.ssubOverflow b = true ↔ a.toInt - b.toInt < -32768 ∨ 32767 < a.toInt - b.toInt := by
  simp only [BitVec.ssubOverflow, Bool.or_eq_true, decide_eq_true_eq]
  omega

theorem subWithFlags_z_iff : (subWithFlags a b).2.z = true ↔ a = b :=
  beq_iff_eq.trans sub_eq_zero

/-- After a subtraction N is the sign of the true difference, unless V says that it is the other one. -/
theorem subWithFlags_n_eq_v_iff : (subWithFlags a b).2.n = (subWithFlags a b).2.v ↔ b.toInt ≤ a.toInt := by
  have hn : (subWithFlags a b).2.n = decide ((a - b).toInt < 0) := BitVec.msb_eq_toInt (x := a - b)
  have hdiff : (a - b).toInt = (a.toInt - b.toInt).bmod (2 ^ 16) := BitVec.toInt_sub
  have ha := a.le_toInt
  have ha' := a.toInt_lt
  have hb := b.le_toInt
  have hb' := b.toInt_lt
  rw [hn, subWithFlags_v]
  cases hv : a.ssubOverflow b with
  | false =>
    have hsame : (a - b).toInt = a.toInt - b.toInt := BitVec.toInt_sub_of_not_ssubOverflow (by simp [hv])
    rw [decide_eq_false_iff_not, hsame]
    omega
  | true =>
    have hout := (ssubOverflow_iff a b).mp hv
    rw [decide_eq_true_eq, hdiff, Int.bmod_def]
    omega

/-- Z clear and N equal to V is signed greater-than (rule R96). -/
theorem subWithFlags_gt_iff :
    (subWithFlags a b).2.z = false ∧ (subWithFlags a b).2.n = (subWithFlags a b).2.v ↔ b.toInt < a.toInt := by
  have hz : (subWithFlags a b).2.z = false ↔ a.toInt ≠ b.toInt := by
    rw [← Bool.not_eq_true, subWithFlags_z_iff, ← BitVec.toInt_inj]
  rw [hz, subWithFlags_n_eq_v_iff]
  omega

end

/-- Settles O12, flag by flag; the two rows of the overflow table are evaluated. -/
theorem flagsMeanOverflowAndOrder : Obligations.FlagsMeanOverflowAndOrder := by
  unfold Obligations.FlagsMeanOverflowAndOrder
  refine ⟨fun a b => ⟨BitVec.toNat_add a b, ?_, decide_eq_true_iff⟩,
    fun a b => ⟨?_, ?_, subWithFlags_z_iff a b, decide_eq_true_iff, subWithFlags_n_eq_v_iff a b,
      subWithFlags_gt_iff a b⟩, by decide, by decide⟩
  · rw [addWithFlags_v, saddOverflow_iff]
  · have hb := b.isLt
    simp only [subWithFlags, BitVec.toNat_sub]
    omega
  · rw [subWithFlags_v, ssubOverflow_iff]

/-! ## Compare then Jump(GreaterThan) (rules R108, R145) -/

theorem greaterThan_iff (f : Flags) : greaterThan f = true ↔ f.z = false ∧ f.n = f.v := by
  simp [greaterThan]

theorem State.jumpIf_pc (s : State) (taken : Bool) (d : Word) :
    (s.jumpIf taken d).pc = if taken then s.pc + d else s.pc := by
  cases taken <;> rfl

/-- Settles O19: the jump's condition on the flags of the comparison is signed greater-than. -/
theorem compareThenGreaterThan : Obligations.CompareThenGreaterThan := by
  unfold Obligations.CompareThenGreaterThan
  intro rs rt d s
  refine ⟨_, _, rfl, rfl, ?_⟩
  simp only [State.jumpIf_pc, State.setFlags_flags, State.setFlags_pc, greaterThan_iff, subWithFlags_gt_iff]

/-! ## Push then Pop (rules R94, R95, R122, R123) -/

/-- A pop right after a push gives the pushed word to its destination and restores `sp` (rule R95). -/
theorem State.popInto_of_pushWord {s t : State} {v : Word} (h : s.pushWord v = .ok t) (dst : LReg) :
    t.popInto dst = .ok ((t.setSp s.sp).set dst v) := by
  obtain ⟨hsp, hstored, hframe, -⟩ := State.pushWord_spec h
  have htop : t.sp = s.sp - 2 := (congrArg State.sp hframe :)
  have hback : t.sp + 2 = s.sp := by rw [htop, BitVec.sub_add_cancel]
  rw [State.popInto_ok t dst (htop ▸ sub_two_ne_top hsp), hback, htop, hstored.low, hstored.high,
    wordOfBytes_lowByte_highByte]

/-- Settles O25: the pop reads the word that the push stored, and the push writes no register but `sp`. -/
theorem pushThenPopRestores : Obligations.PushThenPopRestores := by
  unfold Obligations.PushThenPopRestores
  intro rs rd s hsp
  obtain ⟨t, ht⟩ := State.pushWord_completes s (s.reg rs) hsp
  obtain ⟨-, -, hframe, -⟩ := State.pushWord_spec ht
  have hregs (q : Reg) : t.reg q = s.reg q := (congrArg (·.reg q) hframe :)
  refine ⟨t, (t.setSp s.sp).setReg rd (s.reg rs), ?_, ?_, ?_, rfl, (congrArg State.pc hframe :),
    (congrArg State.flags hframe :)⟩
  · simp only [exec, execPush, ht, finish_ok]
  · simp only [exec, execPop, State.popInto_of_pushWord ht, finish_ok, State.set_general]
  · intro q
    rw [State.reg_setReg, State.setSp_reg, hregs]

/-! ## The target of a jump (rules R140, R142) -/

/-- A word that decodes to Jump(Unconditional) has its offset field's sign extension as the delta. -/
theorem Decodes.delta_of_jmp {enc : Config.Enc} {w d : Word} (h : Decodes enc w (.jmp d)) :
    d = sext12 (jOffsetOf w) := by
  generalize hi : Instr.jmp d = i at h
  cases h with
  | @rType o _ _ => cases o <;> cases hi
  | @iType o _ _ => cases o <;> cases hi
  | @jType o _ _ => cases o <;> cases hi; rfl
  | _ => cases hi

theorem toNat_add_eq_emod (a d : Word) : ((a + d).toNat : Int) = ((a.toNat : Int) + d.toInt) % 0x10000 := by
  rw [BitVec.toNat_add, BitVec.toInt_eq_toNat_cond]
  split <;> omega

theorem sext12_toInt (offset : BitVec 12) : (sext12 offset).toInt = offset.toInt :=
  BitVec.toInt_signExtend_of_le (by omega)

/-- Settles O34: the step sets pc alone, to the sum mod 2^16 of the advanced pc and the signed offset. -/
theorem jumpTargetFromItsAddress : Obligations.JumpTargetFromItsAddress := by
  unfold Obligations.JumpTargetFromItsAddress
  intro s w d hw hd
  obtain rfl := (Decodes.of_decode_eq hd).delta_of_jmp
  refine ⟨_, step_of_fetches hw hd, ?_, rfl⟩
  change ((s.pc + 2 + sext12 (jOffsetOf w)).toNat : Int) = _
  have htwo : (2 : Word).toInt = 2 := rfl
  rw [toNat_add_eq_emod, toNat_add_eq_emod, sext12_toInt, htwo]
  omega

/-! ## Every instruction completes (rules R85, R162, R169) -/

theorem finish_completes (s : State) (r : Except Fault State) : ∃ t, finish s r = .next t := by
  cases r <;> exact ⟨_, rfl⟩

theorem exec_completes (i : Instr) (s : State) : ∃ t, exec i s = .next t := by
  cases i with
  | ldr rd rs => simp only [exec, execLdr]; split <;> exact ⟨_, rfl⟩
  | ld rt imm8 => simp only [exec, execLd]; split <;> exact ⟨_, rfl⟩
  | str | st | push | pop | ret | call => exact finish_completes ..
  | add | sub | and | or | xor | not | shl | shr | cmp | addi | andi | ori | lui | cmpi
  | jmp | jz | jnz | jgt | nop | mfs | mts | sysall | halt => exact ⟨_, rfl⟩

theorem step_completes {s : State} (hf : s.fault = none) : ∃ t, step s = .next t := by
  cases hh : s.halted with
  | true => exact ⟨s, step_halted hf hh⟩
  | false =>
    rw [step_running hf hh]
    split
    · exact ⟨_, rfl⟩
    · split
      · exact ⟨_, rfl⟩
      · exact exec_completes ..

/-- Settles O45: only a latched fault stops a step. -/
theorem noInstructionIsRefused : Obligations.NoInstructionIsRefused := by
  unfold Obligations.NoInstructionIsRefused
  refine ⟨exec_completes, fun s => ?_⟩
  cases hf : s.fault with
  | none => exact .inl ⟨rfl, step_completes hf⟩
  | some f => exact .inr ⟨f, rfl, step_faulted hf⟩

/-! ## The stages of a step (rules R82 to R84) -/

/-- A word that is no instruction ends the step past it, in InvalidInstruction (rule R84). -/
theorem step_of_decode_error {s : State} {w : Word} {e : DecodeError} (hw : Fetches s w)
    (hd : decode s.params.enc w = .error e) :
    step s = .next ((s.setPc (s.pc + 2)).latch (.invalidInstruction w e)) := by
  obtain ⟨hf, hh, hin, hpc, rfl⟩ := hw
  rw [step_running hf hh, fetch_inside hin hpc]
  simp only [hd]
  rfl

/-- Settles O40, by the two ways in which a fetched word decodes. -/
theorem stepRunsDecodedInstruction : Obligations.StepRunsDecodedInstruction := by
  unfold Obligations.StepRunsDecodedInstruction
  exact ⟨fun _ _ _ => step_of_fetches, fun _ _ _ => step_of_decode_error⟩

/-- No handler raises the fault of the boundary check or of the decoder (rule R162). -/
theorem handlerFault_kinds {i : Instr} {s : State} {f : Fault} (h : handlerFault s i = some f) :
    f = .memoryOutOfBounds 0xFFFF#16 ∨ f = .stackOverflow ∨ f = .notImplemented := by
  cases i with
  | ldr | str => obtain ⟨-, ⟨⟩⟩ := Option.ite_none_right_eq_some.mp h; exact .inl rfl
  | push | call | pop | ret => obtain ⟨-, ⟨⟩⟩ := Option.ite_none_right_eq_some.mp h; exact .inr (.inl rfl)
  | sysall => cases h; exact .inr (.inr rfl)
  | add | sub | and | or | xor | not | shl | shr | cmp | ld | st | addi | andi | ori | lui | cmpi
  | jmp | jz | jnz | jgt | nop | mfs | mts | halt => cases h

/-- A step of `s` raises the fault `f` and leaves `t`: the boundary check and the fetch raise with pc on the
instruction, the decoder and the handlers with pc past it (rules R82 to R84, R162, R170). -/
inductive RaisesTo (s : State) : Fault → State → Prop where
  | boundary (ho : OutsideProgram s) :
      RaisesTo s (.programBoundsViolation s.pc (instructionEnd s.pc) s.programStart s.programEnd)
        (s.latch (.programBoundsViolation s.pc (instructionEnd s.pc) s.programStart s.programEnd))
  | fetch (hpc : s.pc = 0xFFFF#16) :
      RaisesTo s (.memoryOutOfBounds 0xFFFF#16) (s.latch (.memoryOutOfBounds 0xFFFF#16))
  | decode {w : Word} {e : DecodeError} (hw : Fetches s w) (hd : Sys2Proof.decode s.params.enc w = .error e) :
      RaisesTo s (.invalidInstruction w e) ((s.setPc (s.pc + 2)).latch (.invalidInstruction w e))
  | handler {w : Word} {i : Instr} {f : Fault} (hw : Fetches s w) (hd : Sys2Proof.decode s.params.enc w = .ok i)
      (hf : handlerFault s i = some f) : RaisesTo s f ((s.setPc (s.pc + 2)).latch f)

/-- A fault that a step leaves latched was raised by it, on a running machine. -/
theorem raisesTo_of_step {s t : State} {f : Fault} (h : step s = .next t) (hl : t.fault = some f) :
    s.fault = none ∧ s.halted = false ∧ RaisesTo s f t := by
  obtain ⟨hf, ⟨-, rfl⟩ | ⟨hh, ⟨ho, rfl⟩ | ⟨-, hpc, rfl⟩ | ⟨w, hw, ⟨e, he, rfl⟩ | ⟨i, hi, hex⟩⟩⟩⟩ :=
    step_next_cases h
  · exact nomatch hf.symm.trans hl
  · cases hl; exact ⟨hf, hh, .boundary ho⟩
  · cases hl; exact ⟨hf, hh, .fetch hpc⟩
  · cases hl; exact ⟨hf, hh, .decode hw he⟩
  · have hraise : handlerFault (s.setPc (s.pc + 2)) i = some f := by
      rwa [exec_fault hex, State.setPc_fault, hf, Option.or_none] at hl
    obtain rfl : (s.setPc (s.pc + 2)).latch f = t :=
      Host.Outcome.next.inj ((exec_of_handlerFault hraise).symm.trans hex)
    exact ⟨hf, hh, .handler hw hi (handlerFault_setPc s _ i ▸ hraise)⟩

/-- The step that raises a fault leaves `halted` as it was (rule R170). -/
theorem RaisesTo.halted_eq {s t : State} {f : Fault} (h : RaisesTo s f t) : t.halted = s.halted := by
  cases h <;> rfl

/-- Settles O41: outside the interval the check raises, and inside no other stage raises its fault. -/
theorem boundaryCheckFaults : Obligations.BoundaryCheckFaults := by
  unfold Obligations.BoundaryCheckFaults
  refine ⟨fun s hf hh ho => ?_, fun s t _ hin h p e lo hi hl => ?_⟩
  · rw [step_running hf hh, fetch_outside ho]
    rfl
  · obtain ⟨-, -, hraise⟩ := raisesTo_of_step h hl
    cases hraise with
    | boundary ho => exact hin ho
    | handler _ _ hf => simpa using handlerFault_kinds hf

/-- Settles O42, by the fetch at 0xFFFF and below it; the joined bytes are the word as a number. -/
theorem fetchReadsThenAdvances : Obligations.FetchReadsThenAdvances := by
  unfold Obligations.FetchReadsThenAdvances
  refine ⟨fun s hf hh hin hpc => ?_, fun s hin hpc => ?_⟩
  · rw [step_running hf hh, fetch_top hin hpc]
    rfl
  · have hnext : s.pc + 2 = BitVec.ofNat 16 ((s.pc.toNat + 2) % 0x10000) :=
      BitVec.eq_of_toNat_eq (by simp [BitVec.toNat_add])
    rw [fetch_inside hin hpc, hnext, wordOfBytes_eq_ofNat]
    rfl

/-! ## What STEP reports (rules R80, R81, R169) -/

/-- STEP on `s` reports the outcome and leaves the state: one constructor for a faulted machine, one for a halted
one, and two for a running one, by what its step leaves in the latch. -/
inductive Reports (s : State) : StepOutcome → State → Prop where
  | faulted {f : Fault} (hf : s.fault = some f) : Reports s (.fault f) s
  | halted (hf : s.fault = none) (hh : s.halted = true) : Reports s .noProgress s
  | progress {t : State} (hf : s.fault = none) (hh : s.halted = false) (h : step s = .next t)
      (ht : t.fault = none) : Reports s .progress t
  | raised {t : State} {f : Fault} (hf : s.fault = none) (hh : s.halted = false) (h : step s = .next t)
      (ht : t.fault = some f) : Reports s (.fault f) t

theorem Reports.stepTransaction_eq {s t : State} {o : StepOutcome} (h : Reports s o t) :
    stepTransaction s = some (o, t) := by
  cases h with
  | faulted hf => exact stepTransaction_faulted hf
  | halted hf hh => simp only [stepTransaction, step_halted hf hh, hh, if_true]
  | progress _ hh h ht | raised _ hh h ht => simp only [stepTransaction, h, hh, ht, Bool.false_eq_true, if_false]

theorem exists_reports (s : State) : ∃ o t, Reports s o t := by
  rcases hf : s.fault with _ | f
  · rcases hh : s.halted with _ | _
    · obtain ⟨t, ht⟩ := step_completes hf
      rcases hl : t.fault with _ | f
      · exact ⟨_, _, .progress hf hh ht hl⟩
      · exact ⟨_, _, .raised hf hh ht hl⟩
    · exact ⟨_, _, .halted hf hh⟩
  · exact ⟨_, _, .faulted hf⟩

theorem Reports.of_stepTransaction {s t : State} {o : StepOutcome} (h : stepTransaction s = some (o, t)) :
    Reports s o t := by
  obtain ⟨o', t', hr⟩ := exists_reports s
  cases hr.stepTransaction_eq.symm.trans h
  exact hr

/-- Settles O46: every state has a report, and each kind of report carries its state condition. -/
theorem stepReportsOneOutcome : Obligations.StepReportsOneOutcome := by
  unfold Obligations.StepReportsOneOutcome
  intro s
  obtain ⟨o, t, hr⟩ := exists_reports s
  refine ⟨o, t, hr.stepTransaction_eq, ?_⟩
  cases hr with
  | faulted hf => exact hf
  | halted hf hh => exact ⟨hf, hh, rfl⟩
  | progress hf hh h ht => exact ⟨hf, hh, ht, h⟩
  | raised _ _ _ ht => exact ht

/-- Settles O43, by the stage that raised the fault; a fetch that completes does not start at 0xFFFF. -/
theorem faultsArePrecise : Obligations.FaultsArePrecise := by
  unfold Obligations.FaultsArePrecise
  intro s t f h hl
  obtain ⟨hf, hh, hraise⟩ := raisesTo_of_step h hl
  refine ⟨(Reports.raised hf hh h hl).stepTransaction_eq, ?_, ?_⟩
  · cases hraise <;> rfl
  · cases hraise with
    | boundary | decode => rfl
    | fetch hpc => exact .inl ⟨hpc, rfl⟩
    | handler hw _ hkind =>
      obtain ⟨-, -, -, hpc, -⟩ := hw
      rcases handlerFault_kinds hkind with rfl | rfl | rfl
      · exact .inr ⟨hpc, rfl⟩
      · rfl
      · rfl

/-! ## Halted and Faulted (rules R81, R169, R171, R181) -/

/-- A LOAD that completes leaves the machine neither halted nor faulted (rule R172). -/
theorem State.load_clears {s t : State} {bytes : List Byte} {a : Word} (h : s.load bytes a = .next t) :
    t.halted = false ∧ t.fault = none := by
  by_cases hfit : a.toNat + bytes.length ≤ 0xFFFF
  · obtain ⟨t', hload, hframe, -⟩ := State.load_spec s bytes a hfit
    obtain rfl : t' = t := Host.Outcome.next.inj (hload.symm.trans h)
    exact ⟨congrArg State.halted hframe, congrArg State.fault hframe⟩
  · rw [State.load_refused s bytes a (by omega)] at h
    cases h

/-- Settles O44: a fault is raised by a running machine alone, which stays unhalted. -/
theorem haltedAndFaultedAreTerminal : Obligations.HaltedAndFaultedAreTerminal := by
  unfold Obligations.HaltedAndFaultedAreTerminal
  refine ⟨fun s f => stepTransaction_faulted, fun s hf hh => (Reports.halted hf hh).stepTransaction_eq,
    fun p m ⟨_, hf⟩ => hf rfl, fun s t bytes a h ⟨_, hf⟩ => hf (State.load_clears h).2, fun s t o hs h => ?_⟩
  cases Reports.of_stepTransaction h with
  | faulted | halted => exact hs
  | progress _ _ _ ht => exact fun ⟨_, hf⟩ => hf ht
  | raised _ hh hstep ht =>
    obtain ⟨-, -, hraise⟩ := raisesTo_of_step hstep ht
    exact fun ⟨hhalted, _⟩ => absurd (hhalted.symm.trans (hraise.halted_eq.trans hh)) (by decide)

/-- Settles O47, by induction on the bound: a STEP that made progress hands on to the run of the next state, and
every other ends the run in a state where STEP reports the same again. -/
theorem runEndsHaltedOrFaulted : Obligations.RunEndsHaltedOrFaulted := by
  unfold Obligations.RunEndsHaltedOrFaulted
  intro k
  induction k with
  | zero => exact fun _ _ _ h => nomatch h
  | succ k ih =>
    intro s t o h
    obtain ⟨o', u, hr⟩ := exists_reports s
    rw [runTransaction, hr.stepTransaction_eq] at h
    cases hr with
    | progress => exact ih u t o h
    | halted hf hh => cases h; exact ⟨(Reports.halted hf hh).stepTransaction_eq, .inl ⟨rfl, hh, hf⟩⟩
    | faulted hf | raised _ _ _ hf => cases h; exact ⟨stepTransaction_faulted hf, .inr ⟨_, rfl, hf⟩⟩

/-! ## The invariant at reset and at power-on (rules R81, R191) -/

/-- Settles O50: no fault is latched at power-on. -/
theorem invariantAtReset : Obligations.InvariantAtReset := by
  unfold Obligations.InvariantAtReset
  exact ⟨.of_no_fault reset_mem_wf rfl, fun p m hm => .of_no_fault hm rfl⟩

end Sys2Proof.Machine

/-! # Proofs of the ALU family: the words that are ALU instructions, what the flag computations give as exact
numbers, and what each instruction writes -/

namespace Sys2Proof.Machine

/-! ## The words of an instruction by its numbers (rules R58, R59) -/

section
variable {enc : Config.Enc} {w : Word}

/-- A word with the numbers of an R-type instruction decodes to it, with the operands from their fields. -/
theorem decode_of_rOp (h : enc.wellFormed = true) (o : ROp) (hop : opcodeOf w = (o.code enc).1)
    (hfunct : functOf w = (o.code enc).2) : decode enc w = .ok (o.instr (rdOf w) (rsOf w) (rtOf w)) :=
  Decodes.decode_eq (.rType (hop ▸ layoutOf_rOp h o) (hop ▸ hfunct ▸ findROp_code h o))

/-- A word with the opcode of an I-type instruction decodes to it, with the operands from their fields. -/
theorem decode_of_iOp (h : enc.wellFormed = true) (o : IOp) (hop : opcodeOf w = o.code enc) :
    decode enc w = .ok (o.instr (iRtOf w) (iImm8Of w)) :=
  Decodes.decode_eq (.iType (hop ▸ layoutOf_iOp h o) (hop ▸ findIOp_code h o))

end

/-! ## Results and flags as exact numbers (rules R7, R90 to R93, R105 to R107) -/

section
variable (a b v : Word)

/-- The test of Z, on the number. -/
theorem beq_zero_eq_decide : (v == 0) = decide (v.toNat = 0) := by
  rw [Bool.eq_iff_iff, beq_iff_eq, decide_eq_true_iff, ← BitVec.toNat_inj]
  rfl

/-- The test of N, on the number. -/
theorem msb_eq_decide_le : v.msb = decide (0x8000 ≤ v.toNat) := BitVec.msb_eq_decide v

theorem shiftFlags_eq (out : Bool) : shiftFlags v out = flagsOfResult v.toNat out := by
  rw [shiftFlags, beq_zero_eq_decide, msb_eq_decide_le, flagsOfResult]

/-- `SetFlagsLogic` sets the flags of a result with no bit shifted out (rule R93). -/
theorem logicResult_eq : logicResult v = (v, flagsOfResult v.toNat false) :=
  Prod.ext rfl (shiftFlags_eq v false)

/-- `AddWithFlags` gives the sum with the flags of the exact sum (rules R90, R91). -/
theorem addWithFlags_eq : addWithFlags a b = (BitVec.ofNat 16 (a.toNat + b.toNat), flagsOfSum a b) := by
  have hsum : (a + b).toNat = (a.toNat + b.toNat) % 0x10000 := BitVec.toNat_add a b
  have hvalue : a + b = BitVec.ofNat 16 (a.toNat + b.toNat) := BitVec.eq_of_toNat_eq hsum
  have hflags : arithFlags a b (a + b) (decide (0xFFFF < a.toNat + b.toNat)) false = flagsOfSum a b := by
    simp only [arithFlags, flagsOfSum, beq_zero_eq_decide, msb_eq_decide_le, hsum, ← decide_not, not_le,
      Bool.decide_or, Bool.decide_and, Bool.and_assoc, Bool.false_eq_true, if_false]
  rw [addWithFlags, hflags, hvalue]

/-- `SubWithFlags` gives the difference with the flags of the exact difference (rules R90, R92). -/
theorem subWithFlags_eq :
    subWithFlags a b = (BitVec.ofNat 16 (a.toNat + 0x10000 - b.toNat), flagsOfDifference a b) := by
  have hb := b.isLt
  have hdiff : (a - b).toNat = (a.toNat + 0x10000 - b.toNat) % 0x10000 := by
    rw [BitVec.toNat_sub]
    omega
  have hvalue : a - b = BitVec.ofNat 16 (a.toNat + 0x10000 - b.toNat) := BitVec.eq_of_toNat_eq hdiff
  have hflags : arithFlags a b (a - b) (decide (a.toNat < b.toNat)) true = flagsOfDifference a b := by
    simp only [arithFlags, flagsOfDifference, beq_zero_eq_decide, msb_eq_decide_le, hdiff, ← decide_not, not_le,
      Bool.decide_or, Bool.decide_and, Bool.and_assoc, if_true]
  rw [subWithFlags, hflags, hvalue]

/-- The bit of a word that a shift reports, as a number (rules R106, R107). -/
theorem getLsbD_eq_decide (i : Nat) : v.getLsbD i = decide (v.toNat / 2 ^ i % 2 = 1) :=
  Nat.testBit_eq_decide_div_mod_eq

/-- ShiftLeft multiplies by the power of two; its last bit out is bit `16 - n` (rule R106). -/
theorem shiftLeftWithFlags_eq (n : Nat) (old : Flags) : shiftLeftWithFlags v n old =
    if n = 0 then (v, old)
    else (BitVec.ofNat 16 (v.toNat * 2 ^ n),
      flagsOfResult (v.toNat * 2 ^ n % 0x10000) (decide (v.toNat / 2 ^ (16 - n) % 2 = 1))) := by
  have hnumber : (v <<< n).toNat = v.toNat * 2 ^ n % 0x10000 := by
    rw [BitVec.toNat_shiftLeft, Nat.shiftLeft_eq]
  have hvalue : v <<< n = BitVec.ofNat 16 (v.toNat * 2 ^ n) := BitVec.eq_of_toNat_eq hnumber
  rw [shiftLeftWithFlags, shiftFlags_eq, getLsbD_eq_decide, hnumber, hvalue]

/-- ShiftRight divides by the power of two; its last bit out is bit `n - 1` (rule R107). -/
theorem shiftRightWithFlags_eq (n : Nat) (old : Flags) : shiftRightWithFlags v n old =
    if n = 0 then (v, old)
    else (BitVec.ofNat 16 (v.toNat / 2 ^ n),
      flagsOfResult (v.toNat / 2 ^ n) (decide (v.toNat / 2 ^ (n - 1) % 2 = 1))) := by
  have hnumber : (v >>> n).toNat = v.toNat / 2 ^ n := by
    rw [BitVec.toNat_ushiftRight, Nat.shiftRight_eq_div_pow]
  rw [shiftRightWithFlags, shiftFlags_eq, getLsbD_eq_decide, ← hnumber, BitVec.ofNat_toNat, BitVec.setWidth_eq]

/-- Sign extension of an immediate, on the number (rule R7). -/
theorem sext8_eq_signed8 (imm8 : Byte) : sext8 imm8 = signed8 imm8 := by
  have hmsb : imm8.msb = decide (0x80 ≤ imm8.toNat) := BitVec.msb_eq_decide imm8
  apply BitVec.eq_of_toNat_eq
  rw [sext8, BitVec.toNat_signExtend, hmsb, BitVec.toNat_setWidth, signed8]
  by_cases hpos : imm8.toNat < 0x80
  · rw [if_pos hpos, decide_eq_false (by omega), BitVec.toNat_ofNat]
    rfl
  · have hlt := imm8.isLt
    rw [if_neg hpos, decide_eq_true (by omega), BitVec.toNat_ofNat, if_pos rfl]
    omega

end

/-! ## What an ALU instruction writes (rules R100 to R108, R132, R136) -/

/-- A result's write-back changes the destination and the flags and nothing else. -/
theorem regAndFlagsWritten_writeResult (s : State) (rd : Reg) (r : Word × Flags) :
    RegAndFlagsWritten rd r.1 r.2 s (s.writeResult rd r) :=
  s.writeResult_spec rd r

/-- Settles O13: both forms write back `AddWithFlags`, the second of the sign-extended immediate. -/
theorem addFormsWriteSumAndFlags : Obligations.AddFormsWriteSumAndFlags := by
  unfold Obligations.AddFormsWriteSumAndFlags
  refine ⟨fun w => decode_of_rOp Config.Enc.spec_wellFormed .add,
    fun w => decode_of_iOp Config.Enc.spec_wellFormed .addi, fun rd rs rt s => ⟨_, rfl, ?_⟩,
    fun rt imm8 s => ⟨_, rfl, ?_⟩⟩
  · rw [addWithFlags_eq]
    exact regAndFlagsWritten_writeResult ..
  · rw [sext8_eq_signed8, addWithFlags_eq]
    exact regAndFlagsWritten_writeResult ..

/-- Settles O14: Sub writes back `SubWithFlags`. -/
theorem subWritesDifferenceAndFlags : Obligations.SubWritesDifferenceAndFlags := by
  unfold Obligations.SubWritesDifferenceAndFlags
  refine ⟨fun w => decode_of_rOp Config.Enc.spec_wellFormed .sub, fun rd rs rt s => ⟨_, rfl, ?_⟩⟩
  rw [subWithFlags_eq]
  exact regAndFlagsWritten_writeResult ..

/-- A bitwise result's write-back changes the destination and the flags and nothing else (rule R93). -/
theorem regAndFlagsWritten_writeResult_logicResult (s : State) (rd : Reg) (v : Word) :
    RegAndFlagsWritten rd v (flagsOfResult v.toNat false) s (s.writeResult rd (logicResult v)) := by
  rw [logicResult_eq]
  exact regAndFlagsWritten_writeResult ..

/-- Settles O15: the three write back their bitwise result. -/
theorem logicWritesResultAndFlags : Obligations.LogicWritesResultAndFlags := by
  unfold Obligations.LogicWritesResultAndFlags
  refine ⟨fun w => decode_of_rOp Config.Enc.spec_wellFormed .and,
    fun w => decode_of_rOp Config.Enc.spec_wellFormed .or,
    fun w => decode_of_rOp Config.Enc.spec_wellFormed .xor, fun rd rs rt s => ⟨?_, ?_, ?_⟩⟩
  · exact ⟨_, rfl, regAndFlagsWritten_writeResult_logicResult ..⟩
  · exact ⟨_, rfl, regAndFlagsWritten_writeResult_logicResult ..⟩
  · exact ⟨_, rfl, regAndFlagsWritten_writeResult_logicResult ..⟩

/-- Settles O16: Not writes back the complement, whose number is the distance to 0xFFFF. -/
theorem notWritesComplementAndFlags : Obligations.NotWritesComplementAndFlags := by
  unfold Obligations.NotWritesComplementAndFlags
  refine ⟨fun w => decode_of_rOp Config.Enc.spec_wellFormed .not, fun rd rs s => ⟨_, rfl, ?_⟩⟩
  have hnumber : (~~~ s.reg rs).toNat = 0xFFFF - (s.reg rs).toNat := BitVec.toNat_not
  rw [← hnumber, BitVec.ofNat_toNat, BitVec.setWidth_eq]
  exact regAndFlagsWritten_writeResult_logicResult ..

/-- Settles O17: the amount is the low four bits of the amount register; by 0 the old flags are written back. -/
theorem shiftsWriteResultAndFlags : Obligations.ShiftsWriteResultAndFlags := by
  unfold Obligations.ShiftsWriteResultAndFlags
  refine ⟨fun w => decode_of_rOp Config.Enc.spec_wellFormed .shl,
    fun w => decode_of_rOp Config.Enc.spec_wellFormed .shr, fun rd rs rt s => ⟨_, rfl, ?_⟩,
    fun rd rs rt s => ⟨_, rfl, ?_⟩⟩
  · rw [shiftLeftWithFlags_eq, shiftAmount_eq_mod]
    split_ifs <;> exact regAndFlagsWritten_writeResult ..
  · rw [shiftRightWithFlags_eq, shiftAmount_eq_mod]
    split_ifs <;> exact regAndFlagsWritten_writeResult ..

/-- Settles O18: both comparisons set the flags of `SubWithFlags` alone. -/
theorem comparesWriteFlagsOnly : Obligations.ComparesWriteFlagsOnly := by
  unfold Obligations.ComparesWriteFlagsOnly
  refine ⟨fun w => decode_of_rOp Config.Enc.spec_wellFormed .cmp,
    fun w => decode_of_iOp Config.Enc.spec_wellFormed .cmpi, fun rs rt s => ?_, fun rt imm8 s => ?_⟩
  · rw [exec, execCmp, subWithFlags_eq]
    rfl
  · rw [exec, execCmpi, sext8_eq_signed8, subWithFlags_eq]
    rfl

end Sys2Proof.Machine

/-! # Proofs of the memory and stack family: the words that are its instructions, the address of the indirect
forms, what each form reads and stores, and Return after Call -/

namespace Sys2Proof.Machine

/-! ## The address of the indirect forms (rule R119) -/

theorem indirectAddress_of_regnum {s : State} (rs : Reg) (h : s.params.eaIndirect = .regnum) :
    indirectAddress s rs = BitVec.ofNat 16 rs.toNat := by
  rw [indirectAddress, h, BitVec.ofNat_toNat]

theorem indirectAddress_of_contents {s : State} (rs : Reg) (h : s.params.eaIndirect = .contents) :
    indirectAddress s rs = s.reg rs := by
  rw [indirectAddress, h]

/-- Under `regnum`, and from a register below 0xFFFF, a word fits at the address (rules R120, R121). -/
theorem indirectAddress_ne_top {s : State} {rs : Reg}
    (h : s.params.eaIndirect = .regnum ∨ s.reg rs ≠ 0xFFFF#16) : indirectAddress s rs ≠ 0xFFFF#16 := by
  intro htop
  obtain ⟨hcontents, hreg⟩ := indirectAddress_eq_top.mp htop
  rcases h with hregnum | hne
  · exact nomatch hregnum.symm.trans hcontents
  · exact hne hreg

/-! ## LoadIndirect and StoreIndirect (rules R120, R121) -/

theorem exec_ldr_of_ne_top {s : State} (rd : Reg) {rs : Reg} (h : indirectAddress s rs ≠ 0xFFFF#16) :
    exec (.ldr rd rs) s = .next (s.setReg rd (wordAt s (indirectAddress s rs))) := by
  rw [exec, execLdr, State.readWord_eq_wordAt s h]

/-- Settles O20: below 0xFFFF the word read completes and is written to rd; at 0xFFFF the handler faults. -/
theorem loadIndirectLoadsWord : Obligations.LoadIndirectLoadsWord := by
  unfold Obligations.LoadIndirectLoadsWord
  refine ⟨fun w => decode_of_rOp Config.Enc.spec_wellFormed .ldr, fun rs _ => indirectAddress_of_regnum rs,
    fun rs _ => indirectAddress_of_contents rs, fun rd rs s h => ?_, fun rd rs s hcontents htop => ?_⟩
  · exact ⟨_, exec_ldr_of_ne_top rd (indirectAddress_ne_top h), State.setReg_spec ..⟩
  · exact exec_of_handlerFault (if_pos ⟨hcontents, htop⟩)

/-- A completed word write is the only change it makes (rule R36). -/
theorem onlyWordStored_of_writeWord {s t : State} {a v : Word} (h : s.writeWord a v = .ok t) :
    OnlyWordStored a v s t := by
  obtain ⟨-, hstored, hframe, -⟩ := State.writeWord_spec h
  refine ⟨hstored, ?_⟩
  rw [hframe]
  exact ⟨fun _ => rfl, rfl, rfl, rfl, rfl, rfl, rfl, rfl, rfl⟩

/-- Settles O21: below 0xFFFF the word write completes; at 0xFFFF the handler faults. -/
theorem storeIndirectStoresWord : Obligations.StoreIndirectStoresWord := by
  unfold Obligations.StoreIndirectStoresWord
  refine ⟨fun w => decode_of_rOp Config.Enc.spec_wellFormed .str, fun rs _ => indirectAddress_of_regnum rs,
    fun rs _ => indirectAddress_of_contents rs, fun rd rs s h => ?_, fun rd rs s hcontents htop => ?_⟩
  · obtain ⟨t, ht⟩ := s.writeWord_completes (s.reg rd) (indirectAddress_ne_top h)
    refine ⟨t, ?_, onlyWordStored_of_writeWord ht⟩
    rw [exec, execStr, ht, finish_ok]
  · exact exec_of_handlerFault (if_pos ⟨hcontents, htop⟩)

/-! ## Push and Pop (rules R94, R95, R122, R123) -/

/-- A completed push changes `sp` and the two bytes below the old stack, and nothing else (rule R94). -/
theorem State.pushWord_frame {s t : State} {v : Word} (h : s.pushWord v = .ok t) :
    t.sp = s.sp - 2 ∧ WordStored (s.sp - 2) v s t ∧ SameRegs s t ∧ t.flags = s.flags ∧ t.pc = s.pc ∧
      SameControl s t := by
  obtain ⟨-, hstored, hframe, -⟩ := State.pushWord_spec h
  refine ⟨congrArg State.sp hframe, hstored, ?_⟩
  rw [hframe]
  exact ⟨fun _ => rfl, rfl, rfl, rfl, rfl, rfl, rfl, rfl⟩

/-- Settles O22: with `sp` at least 2 the push completes; below it the handler faults. -/
theorem pushStoresBelowStack : Obligations.PushStoresBelowStack := by
  unfold Obligations.PushStoresBelowStack
  refine ⟨fun w => decode_of_rOp Config.Enc.spec_wellFormed .push, fun rs s h => ?_, fun rs s h => ?_⟩
  · obtain ⟨t, ht⟩ := s.pushWord_completes (s.reg rs) h
    obtain ⟨hsp, hrest⟩ := State.pushWord_frame ht
    refine ⟨t, ?_, hsp ▸ BitVec.toNat_sub_of_le h, hrest⟩
    rw [exec, execPush, ht, finish_ok]
  · exact exec_of_handlerFault (if_pos h)

/-- A completed pop moves the word at `sp` to its destination and `sp` up by 2 (rule R95). -/
theorem State.popInto_eq_wordAt (s : State) (dst : LReg) (h : s.sp ≠ 0xFFFF#16) :
    s.popInto dst = .ok ((s.setSp (s.sp + 2)).set dst (wordAt s s.sp)) := by
  rw [State.popInto_ok s dst h, wordOfBytes_eq_ofNat, wordAt]

/-- Settles O23: with `sp` below 0xFFFF the pop writes rd and `sp`; at 0xFFFF the handler faults. -/
theorem popLoadsFromStack : Obligations.PopLoadsFromStack := by
  unfold Obligations.PopLoadsFromStack
  refine ⟨fun w => decode_of_rOp Config.Enc.spec_wellFormed .pop, fun rd s h => ?_, fun rd s h => ?_⟩
  · obtain ⟨hreg, hflags, hpc, -, hmem, hcontrol⟩ := (s.setSp (s.sp + 2)).setReg_spec rd (wordAt s s.sp)
    refine ⟨_, ?_, hreg, BitVec.toNat_add .., hflags, hpc, hmem, hcontrol⟩
    rw [exec, execPop, State.popInto_eq_wordAt s _ h, finish_ok, State.set_general]
  · exact exec_of_handlerFault (if_pos h)

/-! ## Return (rules R124, R141) -/

/-- Settles O24: Return pops into pc, and its handler faults where the pop is refused. -/
theorem returnPopsIntoPc : Obligations.ReturnPopsIntoPc := by
  unfold Obligations.ReturnPopsIntoPc
  refine ⟨fun w => decode_of_rOp Config.Enc.spec_wellFormed .ret, fun s h => ?_, fun s h => ?_⟩
  · rw [exec, execRet, State.popInto_eq_wordAt s _ h]
    rfl
  · exact exec_of_handlerFault (if_pos h)

theorem exec_call_of_pushWord {s t : State} (d : Word) (h : s.pushWord s.pc = .ok t) :
    exec (.call d) s = .next (t.setPc (jumpTarget t d)) := by
  rw [exec, execCall, h]
  rfl

/-- A pop into pc overwrites pc, so it does not matter what pc was (rule R124). -/
theorem State.popInto_pc_setPc (s : State) (v : Word) :
    (s.setPc v).popInto (.special .pc) = s.popInto (.special .pc) := rfl

/-- A Return after a push, wherever control has gone since, takes the pushed word into pc (rules R95, R124). -/
theorem exec_ret_of_pushWord {s t : State} {v : Word} (h : s.pushWord v = .ok t) (target : Word) :
    exec .ret (t.setPc target) = .next ((t.setSp s.sp).setPc v) := by
  rw [exec, execRet, State.popInto_pc_setPc, State.popInto_of_pushWord h, finish_ok]
  rfl

/-- Settles O26: Return pops the pc that Call pushed, and the jump between them writes pc alone. -/
theorem returnUndoesCall : Obligations.ReturnUndoesCall := by
  unfold Obligations.ReturnUndoesCall
  intro d s hsp
  obtain ⟨t, ht⟩ := s.pushWord_completes s.pc hsp
  obtain ⟨-, -, hregs, hflags, -⟩ := State.pushWord_frame ht
  exact ⟨_, _, exec_call_of_pushWord d ht, exec_ret_of_pushWord ht _, rfl, rfl, hregs, hflags⟩

end Sys2Proof.Machine

/-! # Proofs of the immediate family: the operands as exact numbers, the next state of each immediate
instruction, and constants built from two bytes -/

namespace Sys2Proof.Machine

/-! ## The operands (rules R7, R63, R130, R133, R135) -/

section
variable (imm8 hi lo : Byte)

/-- Zero extension of an immediate, on the number (rule R7). -/
theorem zext8_eq_unsigned8 : zext8 imm8 = unsigned8 imm8 := (BitVec.ofNat_toNat 16 imm8).symm

theorem zext8_toNat : (zext8 imm8).toNat = imm8.toNat := BitVec.toNat_setWidth_of_le (by decide)

theorem msb_zext8 : (zext8 imm8).msb = false := by
  have := imm8.isLt
  rw [msb_eq_decide_le, zext8_toNat]
  exact decide_eq_false (by omega)

/-- The operand of LoadUpperImmediate, on the number (rule R135). -/
theorem upper8_eq_ofNat : upper8 imm8 = BitVec.ofNat 16 (imm8.toNat * 256) := by
  apply BitVec.eq_of_toNat_eq
  rw [upper8, BitVec.toNat_shiftLeft, zext8_toNat, Nat.shiftLeft_eq, BitVec.toNat_ofNat]

/-- The high and the low byte of a word join to it (rules R37, R135). -/
theorem upper8_or_zext8 : upper8 hi ||| zext8 lo = wordOfBytes lo hi := BitVec.or_comm ..

/-- An upper operand and a zero-extended one have no bit in common. -/
theorem upper8_and_zext8 : upper8 hi &&& zext8 lo = 0 := by
  ext i _
  rw [BitVec.getElem_and]
  by_cases hlow : i < 8
  · simp [upper8, hlow]
  · simp [zext8, BitVec.getLsbD_of_ge lo i (Nat.le_of_not_lt hlow)]

theorem wordOfBytes_toNat : (wordOfBytes lo hi).toNat = hi.toNat * 256 + lo.toNat := by
  have := lo.isLt
  have := hi.isLt
  rw [wordOfBytes_eq_ofNat, BitVec.toNat_ofNat]
  omega

/-- What OrImmediate makes of a word whose low byte is 0 (rules R134, R135). -/
theorem oriValue_upper8_toNat (mode : Config.OriMode) :
    (oriValue mode (upper8 hi) (zext8 lo)).toNat = if mode = .or then hi.toNat * 256 + lo.toNat else 0 := by
  cases mode with
  | or => rw [oriValue, upper8_or_zext8, wordOfBytes_toNat, if_pos rfl]
  | andCompat => rw [oriValue, upper8_and_zext8, if_neg (by decide)]; rfl

end

/-! ## The next state of each instruction (rules R130, R131, R133 to R135) -/

section
variable (rt : Reg) (imm8 : Byte) (s : State)

theorem exec_ld : exec (.ld rt imm8) s = .next (s.setReg rt (wordAt s (unsigned8 imm8))) := by
  rw [exec, execLd, State.readWord_eq_wordAt s (literalAddress_ne_top imm8), literalAddress, zext8_eq_unsigned8]

theorem exec_st {t : State} (h : s.writeWord (literalAddress imm8) (s.reg rt) = .ok t) :
    exec (.st rt imm8) s = .next t := by
  rw [exec, execSt, h, finish_ok]

theorem exec_andi : exec (.andi rt imm8) s =
    .next (s.writeResult rt (logicResult (s.reg rt &&& unsigned8 imm8))) := by
  rw [exec, execAndi, zext8_eq_unsigned8]

theorem exec_ori : exec (.ori rt imm8) s =
    .next (s.writeResult rt (logicResult (oriValue s.params.oriMode (s.reg rt) (unsigned8 imm8)))) := by
  rw [exec, execOri, zext8_eq_unsigned8]

theorem exec_lui : exec (.lui rt imm8) s = .next (s.setReg rt (upper8 imm8)) := rfl

end

/-! ## What each instruction leaves -/

/-- Settles O27: the word read at a literal address completes and is written to rt. -/
theorem loadReadsLiteralAddress : Obligations.LoadReadsLiteralAddress := by
  unfold Obligations.LoadReadsLiteralAddress
  exact ⟨fun w => decode_of_iOp Config.Enc.spec_wellFormed .ld,
    fun rt imm8 s => ⟨_, exec_ld rt imm8 s, State.setReg_spec ..⟩⟩

/-- Settles O28: the word write at a literal address completes. -/
theorem storeWritesLiteralAddress : Obligations.StoreWritesLiteralAddress := by
  unfold Obligations.StoreWritesLiteralAddress
  refine ⟨fun w => decode_of_iOp Config.Enc.spec_wellFormed .st, zext8_eq_unsigned8, fun rt imm8 s => ?_⟩
  obtain ⟨t, ht⟩ := s.writeWord_completes (s.reg rt) (literalAddress_ne_top imm8)
  exact ⟨t, exec_st rt imm8 s ht, onlyWordStored_of_writeWord ht⟩

/-- The result of AndImmediate has bit 15 clear, so N is false (rule R133). -/
theorem logicFlags_and_unsigned8 (v : Word) (imm8 : Byte) : logicFlags (v &&& unsigned8 imm8) =
    { z := decide (v &&& unsigned8 imm8 = 0), n := false, c := false, v := false } := by
  have hmsb : (v &&& unsigned8 imm8).msb = false := by
    rw [BitVec.msb_and, ← zext8_eq_unsigned8, msb_zext8, Bool.and_false]
  rw [logicFlags, hmsb, beq_eq_decide]

/-- Settles O29: all write back a bitwise result; `and_compat` gives OrImmediate the one of AndImmediate. -/
theorem logicalImmediatesUnderBothModes : Obligations.LogicalImmediatesUnderBothModes := by
  unfold Obligations.LogicalImmediatesUnderBothModes
  refine ⟨fun w => decode_of_iOp Config.Enc.spec_wellFormed .andi,
    fun w => decode_of_iOp Config.Enc.spec_wellFormed .ori, fun rt imm8 s => ⟨_, exec_andi rt imm8 s, ?_⟩,
    fun rt imm8 s hor => ⟨_, exec_ori rt imm8 s, ?_⟩, fun rt imm8 s hand => ?_⟩
  · rw [← logicFlags_and_unsigned8]
    exact regAndFlagsWritten_writeResult ..
  · rw [hor]
    exact regAndFlagsWritten_writeResult_logicResult ..
  · rw [exec_ori, exec_andi, hand]
    rfl

/-- Settles O30: the immediate shifted left 8 bits is written to rt, and no flag is. -/
theorem loadUpperImmediateWritesHighByte : Obligations.LoadUpperImmediateWritesHighByte := by
  unfold Obligations.LoadUpperImmediateWritesHighByte
  refine ⟨fun w => decode_of_iOp Config.Enc.spec_wellFormed .lui, fun rt imm8 s => ⟨_, exec_lui rt imm8 s, ?_⟩⟩
  rw [← upper8_eq_ofNat]
  exact State.setReg_spec ..

/-- Settles O31: OrImmediate combines the low byte with the high byte that LoadUpperImmediate left. -/
theorem upperThenOrBuildsConstant : Obligations.UpperThenOrBuildsConstant := by
  unfold Obligations.UpperThenOrBuildsConstant
  intro rt hi lo s hrt
  refine ⟨_, _, exec_lui rt hi s, exec_ori rt lo _, ?_⟩
  have hupper : (s.setReg rt (upper8 hi)).reg rt = upper8 hi := by rw [State.reg_setReg, if_pos ⟨rfl, hrt⟩]
  obtain ⟨hwritten, -⟩ := (s.setReg rt (upper8 hi)).writeResult_spec rt
    (logicResult (oriValue s.params.oriMode (upper8 hi) (zext8 lo)))
  rw [hupper, ← zext8_eq_unsigned8, State.setReg_params, hwritten rt, if_pos ⟨rfl, hrt⟩]
  exact oriValue_upper8_toNat ..

end Sys2Proof.Machine

/-! # Proofs of the jump family: the words that are jumps, the delta as a number, and what each jump leaves -/

namespace Sys2Proof.Machine

/-! ## The words of a jump (rules R7, R60, R63) -/

/-- Sign extension of an offset, on the number (rule R7). -/
theorem sext12_eq_signed12 (offset : BitVec 12) : sext12 offset = signed12 offset := by
  have hlt := offset.isLt
  have hmsb : offset.msb = decide (0x800 ≤ offset.toNat) := BitVec.msb_eq_decide offset
  apply BitVec.eq_of_toNat_eq
  rw [sext12, BitVec.toNat_signExtend, hmsb, BitVec.toNat_setWidth, signed12]
  by_cases hpos : offset.toNat < 0x800
  · rw [if_pos hpos, decide_eq_false (by omega), BitVec.toNat_ofNat]
    rfl
  · rw [if_neg hpos, decide_eq_true (by omega), BitVec.toNat_ofNat, if_pos rfl]
    omega

/-- A word with the opcode of a jump decodes to it, with its sign-extended offset field as the delta. -/
theorem decode_of_jOp {enc : Config.Enc} {w : Word} (h : enc.wellFormed = true) (o : JOp)
    (hop : opcodeOf w = o.code enc) : decode enc w = .ok (o.instr (signed12 (jOffsetOf w))) := by
  rw [← sext12_eq_signed12]
  exact Decodes.decode_eq (.jType (hop ▸ layoutOf_jOp h o) (hop ▸ findJOp_code h o))

/-! ## Call (rule R141) -/

/-- Settles O32: the jump after a completed push writes pc alone; a refused push is the handler's fault. -/
theorem callPushesReturnAddress : Obligations.CallPushesReturnAddress := by
  unfold Obligations.CallPushesReturnAddress
  refine ⟨fun w => decode_of_jOp Config.Enc.spec_wellFormed .call, fun d s h => ?_, fun d s h => ?_⟩
  · obtain ⟨t, ht⟩ := s.pushWord_completes s.pc h
    obtain ⟨hsp, hstored, hregs, hflags, hpc, hcontrol⟩ := State.pushWord_frame ht
    exact ⟨_, exec_call_of_pushWord d ht, congrArg (· + d) hpc, hsp ▸ BitVec.toNat_sub_of_le h, hstored, hregs,
      hflags, hcontrol⟩
  · exact exec_of_handlerFault (if_pos h)

/-! ## The plain jumps (rules R142 to R145) -/

/-- A jump writes pc and nothing else, whether it is taken or not (rule R140). -/
theorem State.jumpIf_eq (s : State) {taken : Bool} {cond : Prop} [Decidable cond] (h : taken = true ↔ cond)
    (d : Word) : s.jumpIf taken d = { s with pc := if cond then s.pc + d else s.pc } := by
  by_cases hcond : cond
  · rw [h.mpr hcond, State.jumpIf_true, if_pos hcond]
    rfl
  · rw [Bool.eq_false_iff.mpr (hcond ∘ h.mp), State.jumpIf_false, if_neg hcond]

/-- Settles O33: each jump is `State.jumpIf` on its own condition. -/
theorem jumpsWritePcOnly : Obligations.JumpsWritePcOnly := by
  unfold Obligations.JumpsWritePcOnly
  refine ⟨fun w => decode_of_jOp Config.Enc.spec_wellFormed .jmp,
    fun w => decode_of_jOp Config.Enc.spec_wellFormed .jz, fun w => decode_of_jOp Config.Enc.spec_wellFormed .jnz,
    fun w => decode_of_jOp Config.Enc.spec_wellFormed .jgt, fun d s => ⟨rfl, ?_, ?_, ?_⟩⟩
  · rw [exec, execJz, State.jumpIf_eq s Iff.rfl]
  · rw [exec, execJnz, State.jumpIf_eq s (Bool.not_eq_true' s.flags.z).to_iff]
  · rw [exec, execJgt, State.jumpIf_eq s (greaterThan_iff s.flags)]

end Sys2Proof.Machine

/-! # Proofs of the extended family: the words of the E-type instructions by subcode, what they do, and the steps
that fetch them -/

namespace Sys2Proof.Machine

/-! ## The words of an E-type instruction by its subcode (rules R19, R61) -/

section
variable {enc : Config.Enc} {w : Word}

/-- Subcode 0 is Nop under every legal `ENC`, whatever the ignored bits hold. -/
theorem decode_of_nop (h : enc.wellFormed = true) (hop : opcodeOf w = 0xF#4) (hsub : subcodeOf w = 0x0#4) :
    decode enc w = .ok .nop :=
  Decodes.decode_eq (.nop hop (hsub ▸ findEOp_code h .nop))

/-- Subcode 0xE is Sysall under every legal `ENC`, whatever the ignored bits hold. -/
theorem decode_of_sysall (h : enc.wellFormed = true) (hop : opcodeOf w = 0xF#4) (hsub : subcodeOf w = 0xE#4) :
    decode enc w = .ok .sysall :=
  Decodes.decode_eq (.sysall hop (hsub ▸ findEOp_code h .sysall))

/-- Subcode 0xF is Halt under every legal `ENC`, whatever the ignored bits hold. -/
theorem decode_of_halt (h : enc.wellFormed = true) (hop : opcodeOf w = 0xF#4) (hsub : subcodeOf w = 0xF#4) :
    decode enc w = .ok .halt :=
  Decodes.decode_eq (.halt hop (hsub ▸ findEOp_code h .halt))

end

/-- Subcode 1 of the spec's `ENC` is MoveFromSpecial where the rs field is a selector, and a decode error where
it is none. -/
theorem decode_of_mfs {w : Word} (hop : opcodeOf w = 0xF#4) (hsub : subcodeOf w = 0x1#4) : decode .spec w =
    if eRsOf w = 0#3 then .ok (.mfs (eRtOf w) .pc)
    else if eRsOf w = 1#3 then .ok (.mfs (eRtOf w) .sp)
    else if eRsOf w = 2#3 then .ok (.mfs (eRtOf w) .flags)
    else .error (.invalidSpecialRegister (eRsOf w)) := by
  have hmfs : findEOp .spec (subcodeOf w) = some .mfs := hsub ▸ findEOp_code Config.Enc.spec_wellFormed .mfs
  have hsel := findSpecial_spec (eRsOf w)
  split_ifs at hsel ⊢
  · exact Decodes.decode_eq (.mfs hop hmfs hsel)
  · exact Decodes.decode_eq (.mfs hop hmfs hsel)
  · exact Decodes.decode_eq (.mfs hop hmfs hsel)
  · exact decode_of_no_special hop (.inl hmfs) hsel

/-! ## MoveFromSpecial (rules R17, R151) -/

/-- The masks of `FLAGS16` are distinct bits, so their disjunction is the sum (rule R17). -/
theorem packFlags_eq_flags16 (f : Flags) : packFlags f = flags16 f := by
  obtain ⟨z, n, c, v⟩ := f
  revert z n c v
  decide

/-- MoveFromSpecial writes the value of the special register to rt and nothing else. -/
theorem exec_mfs (rt : Reg) (sel : Special) (s : State) :
    exec (.mfs rt sel) s = .next (s.setReg rt (s.special sel)) := rfl

/-- Settles O36: the selector table at decode, then one register write for each special register. -/
theorem moveFromSpecialReads : Obligations.MoveFromSpecialReads := by
  unfold Obligations.MoveFromSpecialReads
  refine ⟨fun w => decode_of_mfs, fun rt s => ⟨?pc, ?sp, ?flags⟩⟩
  case pc => exact ⟨_, exec_mfs rt .pc s, s.setReg_spec rt s.pc⟩
  case sp => exact ⟨_, exec_mfs rt .sp s, s.setReg_spec rt s.sp⟩
  case flags =>
    rw [← packFlags_eq_flags16]
    exact ⟨_, exec_mfs rt .flags s, s.setReg_spec rt (packFlags s.flags)⟩

/-! ## Nop, Sysall and Halt (rules R150, R153, R154) -/

/-- Settles O35: what is left of a step whose instruction does nothing is the fetch's advance of pc. -/
theorem nopOnlyAdvancesPc : Obligations.NopOnlyAdvancesPc := by
  unfold Obligations.NopOnlyAdvancesPc
  exact ⟨fun _ _ => decode_of_nop, fun _ => rfl,
    fun _ _ hENC hw hop hsub => step_of_fetches hw (decode_of_nop hENC hop hsub)⟩

/-- Settles O38: the handler latches its fault on the state with pc advanced. -/
theorem sysallFaults : Obligations.SysallFaults := by
  unfold Obligations.SysallFaults
  exact ⟨fun _ _ => decode_of_sysall, fun _ => rfl,
    fun _ _ hENC hw hop hsub => step_of_fetches hw (decode_of_sysall hENC hop hsub)⟩

/-- Settles O39: a running machine makes progress by the step that halts it, and is a halted machine after. -/
theorem haltStopsTheRun : Obligations.HaltStopsTheRun := by
  unfold Obligations.HaltStopsTheRun
  refine ⟨fun _ _ => decode_of_halt, fun _ => rfl, fun s w hENC hw hop hsub => ?_⟩
  have hstep : step s = .next { s with pc := s.pc + 2, halted := true } :=
    step_of_fetches hw (decode_of_halt hENC hop hsub)
  obtain ⟨hf, hh, -⟩ := hw
  have hnext : Reports { s with pc := s.pc + 2, halted := true } .noProgress _ := .halted hf rfl
  exact ⟨(Reports.progress hf hh hstep hf).stepTransaction_eq, hnext.stepTransaction_eq⟩

end Sys2Proof.Machine

/-! # Proofs of the exceptions family: what the way out of Halted and Faulted keeps -/

namespace Sys2Proof.Machine

/-! ## LOAD and the invariant (rules R172, R192) -/

/-- A LOAD that completes fits below 0x10000 (rule R192). -/
theorem State.fits_of_load {s t : State} {bytes : List Byte} {a : Word} (h : s.load bytes a = .next t) :
    a.toNat + bytes.length ≤ 0xFFFF := by
  by_contra hbeyond
  rw [State.load_refused s bytes a (by omega)] at h
  cases h

/-- A LOAD writes memory byte by byte, so it keeps the canonical form. -/
theorem State.load_wf {s t : State} {bytes : List Byte} {a : Word} (h : s.load bytes a = .next t)
    (hmem : Memory.wf s.mem = true) : Memory.wf t.mem = true := by
  rw [State.load_ok s bytes a (State.fits_of_load h)] at h
  cases h
  exact State.writeBytes_wf bytes _ a hmem

/-- Settles O51: the bytes written keep the canonical form, and no fault is left to explain. -/
theorem loadKeepsInvariant : Obligations.LoadKeepsInvariant := by
  unfold Obligations.LoadKeepsInvariant
  intro s t bytes a ⟨hmem, _, _⟩ h
  obtain ⟨-, hf⟩ := State.load_clears h
  exact .of_no_fault (State.load_wf h hmem) hf

end Sys2Proof.Machine

/-! # Proofs of the reset family: the values at power-on -/

namespace Sys2Proof.Machine

/-! ## Power-on (rules R12, R25, R191) -/

/-- R0 has no storage and reads 0; each of R1 to R7 reads its slot, which power-on clears. -/
theorem State.powerOn_reg (p : Config.Params) (m : Memory) (q : Reg) : (State.powerOn p m).reg q = 0 := by
  by_cases hq : q = 0#3
  · rw [hq]
    exact State.reg_zero _
  · have hslot : q.toNat - 1 < 7 := by have := q.isLt; omega
    calc (State.powerOn p m).reg q = (Vector.replicate 7 (0 : Word))[q.toNat - 1] := if_neg hq
      _ = 0 := Vector.getElem_replicate hslot

/-- Settles O57: the registers read their cleared slots, and every other field is the one power-on sets. -/
theorem powerOnValues : Obligations.PowerOnValues := by
  unfold Obligations.PowerOnValues
  intro p m
  exact ⟨State.powerOn_reg p m, rfl, rfl, rfl, rfl, rfl, rfl, rfl, fun _ => rfl⟩

end Sys2Proof.Machine
